-- ==== Sys2Proof/Word.lean ====
section
/-! DEFINITION. The fixed-width words of the block (spec/30_encoding.md R70 to R76, R80).
A sequence of a fixed number of bits is held packed, its first element in the most significant bit
(00_scope.md R11), so element `k` of the sequence is `v.getMsbD k`. -/

namespace Sys2Proof

/-- A command word, 64 bits (30_encoding.md R80). -/
abbrev Cmd := BitVec 64

/-- A Payload of 24 bits, `P[k] = P.getMsbD k` (30_encoding.md R70). -/
abbrev Payload := BitVec 24

/-- A 29-bit sequence of Codeword positions, valid Codeword or not (30_encoding.md R71, R83). -/
abbrev Codeword := BitVec 29

/-- A Transmission Frame of 43 bits, `txFrame[t] = f.getMsbD t` (30_encoding.md R74). -/
abbrev Frame := BitVec 43

/-- A packed observation window of 24 observations, `w[0]` in the top bit (30_encoding.md R75). -/
abbrev Window := BitVec 24

/-- A packed group of three observations (30_encoding.md R85). -/
abbrev Group := BitVec 3

/-- A luminance sample `s`, standing for `s/255`, as a command word carries it (30_encoding.md R84). -/
abbrev Lum := BitVec 8

/-- One 8-bit character code (30_encoding.md R76). -/
abbrev CharCode := BitVec 8

/-- The six character slots of a HEX2PL command, character 0 in the top byte (30_encoding.md R86). -/
abbrev HexChars := BitVec 48

end Sys2Proof
end

