-- ==== Sys2Proof/Config.lean ====
section
/-! DEFINITION. The parameters of 00_scope.md R9 as a record. The values of the block specified are
`Sys2Proof.Machine.blockConfig` (Machine/Params.lean). The operations that read a parameter take the record as an
argument, so a claim about them can be stated for every value (42_synchronizer.md R138, R144). -/

namespace Sys2Proof

/-- `TIE_BREAK` (00_scope.md R9, 42_synchronizer.md R138): which index wins when several history slots hold the
highest score. -/
inductive TieBreak where
  | lowest
  | highest
  deriving DecidableEq, Repr

/-- The parameters the source does not fix (00_scope.md R9). -/
structure Config where
  /-- `LUM_W`: width of the luminance port; the sample integer `s` stands for `s / (2^LUM_W - 1)`. -/
  lumW : Nat
  /-- `THRESH_INT`: the smallest sample that binarizes to bright at `LUM_W = 8`. -/
  threshInt : Nat
  /-- `THRESH_STRICT`: whether bright means `L > 0.85` (true) or `L >= 0.85` (false). -/
  threshStrict : Bool
  /-- `TX_INTENSITY`: the argument of every `activate`. -/
  txIntensity : BitVec 8
  /-- `TIE_BREAK`. -/
  tieBreak : TieBreak
  /-- `CARRY(maxIndex)`: observations carried into the data phase at lock. Values above 2 are excluded
  (93_implementation_defined.md U1), so its type is `Fin 3`. -/
  carry : Fin 3 → Fin 3

/-- A sample at the luminance port, `LUM_W` bits wide (00_scope.md R9). -/
abbrev Config.Sample (cfg : Config) := BitVec cfg.lumW

end Sys2Proof
end

