-- ==== Sys2Proof/Syntax.lean ====
section
/-! DEFINITION. The eleven operations of spec/opcode_table.json as one inductive type (30_encoding.md R81).
An operand has exactly the width of its field, so every term is a well-formed operation
(30_encoding.md R89 (d), (e): a value outside the field cannot be presented). -/

namespace Sys2Proof

/-- An operation with its operands (30_encoding.md R81 to R87). -/
inductive Instr where
  /-- ENC payload (40_codec.md R101). -/
  | enc (payload : Payload)
  /-- DEC cw (40_codec.md R104). -/
  | dec (cw : Codeword)
  /-- BIN lum (41_binarize_majority.md R120). -/
  | bin (lum : Lum)
  /-- MAJ3 obs (41_binarize_majority.md R122). -/
  | maj3 (obs : Group)
  /-- SCORE win (42_synchronizer.md R133). -/
  | score (win : Window)
  /-- HEX2PL len, chars (44_modulator.md R170). -/
  | hex2pl (len : BitVec 4) (chars : HexChars)
  /-- RX.RESET (43_demodulator.md R150). -/
  | rxReset
  /-- RX.SAMPLE lum (43_demodulator.md R151). -/
  | rxSample (lum : Lum)
  /-- TX.RESET (44_modulator.md R179). -/
  | txReset
  /-- TX.SEND payload, avail, ok (44_modulator.md R177). -/
  | txSend (payload : Payload) (avail : Bool) (ok : Bool)
  /-- TX.TICK ok (44_modulator.md R178). -/
  | txTick (ok : Bool)
  deriving DecidableEq, Repr

end Sys2Proof
end

