-- ==== Sys2Proof/Machine/State.lean ====
section
/-! DEFINITION. The state of the block as plain data: the two records of 10_state.md (R22 to R33), the events it has
emitted and the command words that have arrived (30_encoding.md R80, R90), and the value after power-on reset
(10_state.md R39). The block has no memory, no register file and no program counter (R20, 20_memory.md R50). -/

namespace Sys2Proof.Machine

/-- `rxState`, the receiver's phase (10_state.md R22). -/
inductive RxPhase where
  | initializing
  | searching
  | receiving
  deriving DecidableEq, Repr

/-- `hist`, the rolling accuracy history: slot 0 is the oldest retained score, slot 2 the newest (10_state.md R25). -/
structure Hist where
  slot0 : Nat
  slot1 : Nat
  slot2 : Nat
  deriving DecidableEq, Repr

/-- The Receiver Session State `RxState` (10_state.md R22 to R28). -/
structure RxState where
  /-- R22. -/
  rxState : RxPhase
  /-- Observations discarded in INITIALIZING, 0..30 (R23). -/
  initCount : Nat
  /-- The start buffer, oldest first, at most 24 between operations (R24). -/
  startBuf : List Bool
  /-- R25. -/
  hist : Hist
  /-- The data accumulation buffer, at most 2 between operations (R26). -/
  obsBuf : List Bool
  /-- The bit buffer, first received bit first, at most 28 between operations (R27). -/
  bitBuf : List Bool
  /-- The `corrected` result of the most recent frame decode (R28). -/
  rxCorrected : Bool
  deriving DecidableEq, Repr

/-- The transmit state `TxState` (10_state.md R29 to R33). -/
structure TxState where
  /-- 1 while the periodic timer is armed (R29). -/
  txRun : Bool
  /-- The Transmission Frame being sent (R30). -/
  txFrame : Frame
  /-- The index of the next frame bit to transmit, 0..43 (R31). -/
  txIndex : Nat
  /-- The previously transmitted bit (R32). -/
  txPrev : Bool
  /-- Sticky: an actuator call of the transmit pipeline reported failure (R33). -/
  txFail : Bool
  deriving DecidableEq, Repr

/-- The output events with the field widths of 30_encoding.md R90. -/
inductive Event where
  | resCw (cw : Codeword)
  | resPl (payload : Payload) (corrected : Bool)
  | resBit (b : Bool)
  | resScore (score : BitVec 5)
  | resHex (valid : Bool) (payload : Payload)
  | resIllegal
  | rxStatus (state : BitVec 2)
  | rxProgress (n : BitVec 5)
  | rxPayload (payload : Payload) (corrected : Bool)
  | txResult (code : BitVec 2)
  | txActOn (intensity : BitVec 8)
  | txActOff
  | txActFail
  | txDone
  deriving DecidableEq, Repr

/-- The whole state of the model. `rx` and `tx` are the spec's state (10_state.md R20). `events` and `input` are the
model's own fields: what the block has emitted, in emission order, which no step reads (notes/assumptions/2.md), and the
command words that have arrived and are not yet executed, next one first (notes/assumptions/3.md). -/
structure State where
  rx : RxState
  tx : TxState
  events : List Event
  input : List Cmd
  deriving DecidableEq, Repr

/-- The block has no fault: "A model needs no fault outcome for the block itself; its step function is total"
(60_exceptions.md R200). The type has no constructor, so no step can answer one: safe. -/
inductive Fault where
  deriving DecidableEq, Repr

/-- Reasons to answer with no meaning. -/
inductive Refusal where
  /-- Raised by an arm of `exec` whose instruction has no meaning yet. No arm does: every operation is modelled.
  Safe: the machine would stop where the hardware goes on. -/
  | notModelled (mnemonic : String)
  deriving DecidableEq, Repr

/-- The empty history `[0, 0, 0]` (10_state.md R25). -/
def Hist.zero : Hist := { slot0 := 0, slot1 := 0, slot2 := 0 }

/-- `RxState` after power-on reset (10_state.md R39). -/
def RxState.atReset : RxState :=
  { rxState := .initializing, initCount := 0, startBuf := [], hist := Hist.zero, obsBuf := [], bitBuf := [],
    rxCorrected := false }

/-- `TxState` after power-on reset (10_state.md R39). The spec leaves `txFrame` unspecified; 43 zeros is the model's
DESIGN CHOICE (notes/assumptions/1.md). -/
def TxState.atReset : TxState :=
  { txRun := false, txFrame := 0#43, txIndex := 0, txPrev := false, txFail := false }

/-- The block after power-on reset, which is RX.RESET and TX.RESET together (10_state.md R39, 70_reset_and_hazards.md
R230). The two events are those the two resets emit (DEDUCED, notes/assumptions/5.md); no command has arrived. -/
def State.reset : State :=
  { rx := RxState.atReset, tx := TxState.atReset, events := [.rxStatus 0#2, .txActOff], input := [] }

end Sys2Proof.Machine
end

