-- ==== Sys2Proof/Machine/Params.lean ====
section
/-! DEFINITION. The hardwired constants of 00_scope.md R8 and the parameter values of R9 the block runs with. -/

namespace Sys2Proof.Machine

/-- `PAYLOAD_BITS` (R8). -/
def payloadBits : Nat := 24

/-- `CODEWORD_BITS`, also called `dataBitCount` (R8). -/
def codewordBits : Nat := 29

/-- `PARITY_POS`, in ascending order (R8). -/
def parityPos : List Nat := [1, 2, 4, 8, 16]

/-- `DATA_POS`, the non-parity positions in ascending order: `P[k]` is at `DATA_POS[k]` (30_encoding.md R71). -/
def dataPos : List Nat :=
  [3, 5, 6, 7, 9, 10, 11, 12, 13, 14, 15, 17, 18, 19, 20, 21, 22, 23, 24, 25, 26, 27, 28, 29]

/-- `STAB_PATTERN` (R8). -/
def stabPattern : List Bool := [true, true, true, true, false, false]

/-- `START_PATTERN` (R8). -/
def startPattern : List Bool := [true, false, true, false, true, false, true, false]

/-- `FRAME_BITS` (R8). -/
def frameBits : Nat := 43

/-- `FRAMES_PER_BIT` (R8). -/
def framesPerBit : Nat := 3

/-- `SYNC_WINDOW` (R8). -/
def syncWindow : Nat := 24

/-- `INIT_FRAMES` (R8). -/
def initFrames : Nat := 30

/-- `CARRY(maxIndex) = 2 - maxIndex` (R9, 42_synchronizer.md R139). -/
def carryDefault (maxIndex : Fin 3) : Fin 3 := 2 - maxIndex

/-- The block's parameters at the values of R9. Reducible, so that the 8-bit sample of a command word is a sample of the
block's own port. -/
abbrev blockConfig : Config :=
  { lumW := 8, threshInt := 217, threshStrict := true, txIntensity := 255#8, tieBreak := .lowest,
    carry := carryDefault }

end Sys2Proof.Machine
end

