-- ==== Sys2Proof/Machine/Operands.lean ====
section
/-! DEFINITION. How operands and packed sequences are read and written: packing (00_scope.md R11), Codeword positions
(30_encoding.md R71), groups and windows (R75, R85), character slots and hexadecimal digits (R76, R86). -/

namespace Sys2Proof.Machine

/-- The integer a sequence packs to, its first element most significant (00_scope.md R11). -/
def packNat (q : List Bool) : Nat := q.foldl (fun v b => 2 * v + b.toNat) 0

/-- `pack(q)` as an `n`-bit word (00_scope.md R11). -/
def pack (n : Nat) (q : List Bool) : BitVec n := BitVec.ofNat n (packNat q)

/-- `unpack_n(v)`, the inverse of `pack` (00_scope.md R11). -/
def unpack {n : Nat} (v : BitVec n) : List Bool := (List.range n).map (fun k => v.getMsbD k)

/-- `P[k]` of a Payload (30_encoding.md R70, R82). -/
def payloadBit (p : Payload) (k : Nat) : Bool := p.getMsbD k

/-- `c[i]`, the bit at the 1-indexed position `i` of a Codeword (30_encoding.md R71, R83). -/
def codeBit (c : Codeword) (i : Nat) : Bool := c.getMsbD (i - 1)

/-- The 29-bit integer with only position `i` set: packed bit `29 - i` (30_encoding.md R71). -/
def posMask (i : Nat) : Codeword := 1#29 <<< (codewordBits - i)

/-- `c[i] <- b`. -/
def setCodeBit (c : Codeword) (i : Nat) (b : Bool) : Codeword :=
  if b then c ||| posMask i else c &&& ~~~(posMask i)

/-- `c[i] <- c[i] xor 1`. -/
def flipCodeBit (c : Codeword) (i : Nat) : Codeword := setCodeBit c i (!codeBit c i)

/-- `txFrame[t]` (30_encoding.md R74). -/
def frameBit (f : Frame) (t : Nat) : Bool := f.getMsbD t

/-- The observations of a MAJ3 operand, `g[0]` first (30_encoding.md R85). -/
def groupObs (g : Group) : List Bool := unpack g

/-- The observations of a SCORE operand, `w[0]` first (30_encoding.md R75, R85). -/
def windowObs (w : Window) : List Bool := unpack w

/-- Character `k` of a HEX2PL operand, cmd[47-8k : 40-8k] (30_encoding.md R86). -/
def hexChar (ch : HexChars) (k : Nat) : CharCode := ch.extractLsb' (40 - 8 * k) 8

/-- The six character slots, leftmost first. -/
def hexCharList (ch : HexChars) : List CharCode := (List.range 6).map (hexChar ch)

/-- `HEXDIGIT(code)` (44_modulator.md R171; the character codes PRESUMED there, notes/assumptions/13.md). -/
def hexDigit (code : CharCode) : Option Nat :=
  let c := code.toNat
  if 0x30 ≤ c ∧ c ≤ 0x39 then some (c - 0x30)
  else if 0x41 ≤ c ∧ c ≤ 0x46 then some (c - 0x41 + 10)
  else if 0x61 ≤ c ∧ c ≤ 0x66 then some (c - 0x61 + 10)
  else none

end Sys2Proof.Machine
end

