-- ==== Sys2Proof/Machine/Flags.lean ====
section
/-! DEFINITION. The flag-like results (10_state.md R34) and the status and result codes (R22, 30_encoding.md R92). -/

namespace Sys2Proof.Machine

/-- The encoding of `rxState` on the status output; 3 never occurs (10_state.md R22). -/
def statusCode : RxPhase → BitVec 2
  | .initializing => 0#2
  | .searching => 1#2
  | .receiving => 2#2

/-- TX.RESULT code OK (30_encoding.md R92). -/
def resultOk : BitVec 2 := 0#2

/-- TX.RESULT code UNAVAILABLE (30_encoding.md R92). -/
def resultUnavailable : BitVec 2 := 1#2

/-- TX.RESULT code BUSY (30_encoding.md R92). -/
def resultBusy : BitVec 2 := 2#2

/-- `corrected`: a bit was flipped, which is so exactly for a syndrome 1..29 (40_codec.md R104). -/
def correctedFlag (errorPosition : Nat) : Bool := decide (errorPosition ≠ 0 ∧ errorPosition ≤ codewordBits)

/-- `txFail` after an actuator call that answered `ok`: sticky (10_state.md R33, 44_modulator.md R182). -/
def failFlag (txFail ok : Bool) : Bool := txFail || !ok

end Sys2Proof.Machine
end

