-- ==== Sys2Proof/Machine/Ops.lean ====
section
/-! DEFINITION. The shared operations: the five buffer primitives (20_memory.md R52), emission of events
(00_scope.md R12), running an operation of one pipeline, the change of receiver phase, the receiver's recovery
(60_exceptions.md R210, the block's only counterpart of taking an exception; there is no return, R211), the actuator
call (44_modulator.md R178, R182) and the reserved word (30_encoding.md R88). -/

namespace Sys2Proof.Machine

/-- `append(q, b)` (20_memory.md R52). -/
def append (q : List Bool) (b : Bool) : List Bool := q ++ [b]

/-- `last(q, n)`: the final `n` elements in their order (00_scope.md R10). -/
def lastN (q : List Bool) (n : Nat) : List Bool := q.drop (q.length - n)

/-- `truncate(q, n)` (20_memory.md R52). -/
def truncate (q : List Bool) (n : Nat) : List Bool := if q.length > n then lastN q n else q

/-- `clear(q)` (20_memory.md R52): the value a cleared buffer holds. -/
def cleared : List Bool := []

/-- `push(hist, a)`: "push the new value, drop the oldest" (20_memory.md R52). -/
def pushHist (h : Hist) (a : Nat) : Hist := { slot0 := h.slot1, slot1 := h.slot2, slot2 := a }

/-- `hist[j]`. -/
def histSlot (h : Hist) (j : Fin 3) : Nat :=
  match j with
  | 0 => h.slot0
  | 1 => h.slot1
  | 2 => h.slot2

/-- `count(q)`: the number of elements equal to 1 (00_scope.md R10). -/
def countOnes (q : List Bool) : Nat := q.count true

/-- `XOR{...}` of a list of bits, 0 for the empty list (00_scope.md R11). -/
def xorAll (q : List Bool) : Bool := q.foldl Bool.xor false

/-- `emit`: events are appended in the order emitted (00_scope.md R12, 60_exceptions.md R208). -/
def emit (es : List Event) (s : State) : State := { s with events := s.events ++ es }

/-- An operation of the receive pipeline: a function from `RxState` to the new `RxState` and a list of events
(10_state.md R20). -/
def runRx (f : RxState → RxState × List Event) (s : State) : State :=
  emit (f s.rx).2 { s with rx := (f s.rx).1 }

/-- An operation of the transmit pipeline (10_state.md R20). -/
def runTx (f : TxState → TxState × List Event) (s : State) : State :=
  emit (f s.tx).2 { s with tx := (f s.tx).1 }

/-- The receiver goes to phase `p` and reports it (60_exceptions.md R206). -/
def enterPhase (p : RxPhase) (r : RxState) : RxState × List Event :=
  ({ r with rxState := p }, [.rxStatus (statusCode p)])

/-- The return to SEARCHING, "the one automatic recovery": `obsBuf` and `bitBuf` are discarded, nothing is saved, the
next sample runs SYNC (60_exceptions.md R210, 43_demodulator.md R155, R156). -/
def recover (r : RxState) : RxState × List Event :=
  enterPhase .searching { r with obsBuf := cleared, bitBuf := cleared }

/-- An actuator call: the command is emitted, and a failed call sets `txFail` and emits TX.ACT_FAIL directly after it
(44_modulator.md R178, R182). -/
def actuate (command : Event) (ok : Bool) (t : TxState) : TxState × List Event :=
  ({ t with txFail := failFlag t.txFail ok }, if ok then [command] else [command, .txActFail])

/-- A reserved word "changes no state and emits the single event RES.ILLEGAL" (30_encoding.md R88, U13;
DEDUCED, notes/assumptions/9.md). -/
def reservedWord (s : State) : State := emit [.resIllegal] s

end Sys2Proof.Machine
end

