-- ==== Sys2Proof/Machine/Binarize.lean ====
section
/-! DEFINITION. Binarization and majority vote: BIN, MAJ3 (41_binarize_majority.md). -/

namespace Sys2Proof.Machine

/-- The comparison of the real value `L = s / (2^LUM_W - 1)` with `THRESH = 17/20`, on integers; `THRESH_STRICT` says
whether `L = THRESH` is dark (00_scope.md R9, R13, 41_binarize_majority.md R121). -/
def realBright (cfg : Config) (s : Nat) : Bool :=
  if cfg.threshStrict then decide (17 * (2 ^ cfg.lumW - 1) < 20 * s) else decide (17 * (2 ^ cfg.lumW - 1) ≤ 20 * s)

/-- The observation of a sample: at `LUM_W = 8` bright exactly when `s >= THRESH_INT` (41_binarize_majority.md R120), at
another width by the comparison of the real value (R121; 00_scope.md R9; notes/assumptions/6.md). -/
def binarize (cfg : Config) (lum : cfg.Sample) : Bool :=
  if cfg.lumW = 8 then decide (cfg.threshInt ≤ lum.toNat) else realBright cfg lum.toNat

/-- MAJ3VAL: `count(g) >= 2` (41_binarize_majority.md R122). -/
def maj3Val (g : List Bool) : Bool := decide (2 ≤ countOnes g)

/-- BIN (41_binarize_majority.md R120). -/
def execBin (lum : Lum) (s : State) : Host.Outcome State Fault Refusal :=
  .next (emit [.resBit (binarize blockConfig lum)] s)

/-- MAJ3 (41_binarize_majority.md R122). -/
def execMaj3 (g : Group) (s : State) : Host.Outcome State Fault Refusal :=
  .next (emit [.resBit (maj3Val (groupObs g))] s)

end Sys2Proof.Machine
end

