-- ==== Sys2Proof/Machine/Codec.lean ====
section
/-! DEFINITION. The Hamming(29,24) encoder and decoder: ENC, DEC (40_codec.md). -/

namespace Sys2Proof.Machine

/-- The check group of `p`: the positions 1..29 with `i & p != 0` (30_encoding.md R72). -/
def checkGroup (p : Nat) : List Nat := (List.range' 1 codewordBits).filter (fun i => i &&& p != 0)

/-- The XOR over the check group of `p` (40_codec.md R101, R104). -/
def groupParity (c : Codeword) (p : Nat) : Bool := xorAll ((checkGroup p).map (codeBit c))

/-- `c[DATA_POS[k]] <- P[k]` for every `k`, parity positions 0 (40_codec.md R101, D31). -/
def placeData (p : Payload) : Codeword :=
  dataPos.zipIdx.foldl (fun c ik => setCodeBit c ik.1 (payloadBit p ik.2)) 0#29

/-- `c[p] <- XOR` of its check group (40_codec.md R101). -/
def placeParity (c : Codeword) (p : Nat) : Codeword := setCodeBit c p (groupParity c p)

/-- ENCVAL: the Codeword of a Payload (40_codec.md R101). -/
def encVal (p : Payload) : Codeword := parityPos.foldl placeParity (placeData p)

/-- The syndrome, a value 0..31, from the bits as received (40_codec.md R104, R105). -/
def errorPosition (c : Codeword) : Nat := parityPos.foldl (fun e p => if groupParity c p then e ^^^ p else e) 0

/-- The bits at `DATA_POS`, in ascending order (40_codec.md R104). -/
def extractData (c : Codeword) : Payload := pack 24 (dataPos.map (codeBit c))

/-- The received bits after the correction, if any (40_codec.md R104; syndromes 30 and 31 flip nothing, D12). -/
def correctBits (c : Codeword) : Codeword :=
  if correctedFlag (errorPosition c) then flipCodeBit c (errorPosition c) else c

/-- DECVAL: payload and `corrected` (40_codec.md R104). -/
def decVal (c : Codeword) : Payload × Bool := (extractData (correctBits c), correctedFlag (errorPosition c))

/-- ENC (40_codec.md R101). -/
def execEnc (p : Payload) (s : State) : Host.Outcome State Fault Refusal := .next (emit [.resCw (encVal p)] s)

/-- DEC (40_codec.md R104). It writes no state element, `rxCorrected` included (10_state.md R34). -/
def execDec (c : Codeword) (s : State) : Host.Outcome State Fault Refusal :=
  .next (emit [.resPl (decVal c).1 (decVal c).2] s)

end Sys2Proof.Machine
end

