-- ==== Sys2Proof/Machine/Synchronizer.lean ====
section
/-! DEFINITION. The frame preamble synchronizer: SCORE, and the SYNC step of RX.SAMPLE (42_synchronizer.md). -/

namespace Sys2Proof.Machine

/-- The number of observations of a group that differ from its expected bit (42_synchronizer.md R133). -/
def groupMismatches (e : Bool) (g : List Bool) : Nat := g.count (!e)

/-- The loop of SCOREVAL: one group of three per pattern bit, 0 at the first group whose majority differs,
`24 - mism` at the end (42_synchronizer.md R131, R133). -/
def scoreLoop : List Bool → List Bool → Nat → Nat
  | [], _, mism => syncWindow - mism
  | e :: es, w, mism =>
    if maj3Val (w.take framesPerBit) = e then
      scoreLoop es (w.drop framesPerBit) (mism + groupMismatches e (w.take framesPerBit))
    else 0

/-- SCOREVAL of a window of 24 observations (42_synchronizer.md R133). -/
def scoreVal (w : List Bool) : Nat := scoreLoop startPattern w 0

/-- The highest score in the history. -/
def histMax (h : Hist) : Nat := max h.slot0 (max h.slot1 h.slot2)

/-- `maxIndex`: an index of the highest score, chosen by `TIE_BREAK` among ties (42_synchronizer.md R138). -/
def maxIndex (tb : TieBreak) (h : Hist) : Fin 3 :=
  match tb with
  | .lowest => if h.slot0 = histMax h then 0 else if h.slot1 = histMax h then 1 else 2
  | .highest => if h.slot2 = histMax h then 2 else if h.slot1 = histMax h then 1 else 0

/-- Steps 1 and 2 of SYNC: the start buffer after the observation is appended (42_synchronizer.md R135, R136). -/
def syncBuffer (buf : List Bool) (o : Bool) : List Bool := truncate (append buf o) syncWindow

/-- Steps 1, 3, 4 of SYNC: the accuracy of the observation, 0 while the buffer is short (42_synchronizer.md R135). -/
def syncScore (buf : List Bool) (o : Bool) : Nat :=
  if (append buf o).length < syncWindow then 0 else scoreVal (syncBuffer buf o)

/-- Step 5 of SYNC: the history after the push (42_synchronizer.md R137). -/
def syncHist (o : Bool) (r : RxState) : Hist := pushHist r.hist (syncScore r.startBuf o)

/-- Step 7 of SYNC: how many observations are carried into the data phase (42_synchronizer.md R139, R144). -/
def carryCount (cfg : Config) (h : Hist) : Nat := (cfg.carry (maxIndex cfg.tieBreak h)).val

/-- SYNC: the new receiver state and whether lock was declared, on `hist[0] > 0` alone (42_synchronizer.md R136,
R137, 90_conflicts.md C1). -/
def sync (cfg : Config) (o : Bool) (r : RxState) : RxState × Bool :=
  if 0 < (syncHist o r).slot0 then
    ({ r with obsBuf := lastN (syncBuffer r.startBuf o) (carryCount cfg (syncHist o r)), startBuf := cleared,
              hist := Hist.zero }, true)
  else ({ r with startBuf := syncBuffer r.startBuf o, hist := syncHist o r }, false)

/-- SCORE (42_synchronizer.md R133). -/
def execScore (w : Window) (s : State) : Host.Outcome State Fault Refusal :=
  .next (emit [.resScore (BitVec.ofNat 5 (scoreVal (windowObs w)))] s)

end Sys2Proof.Machine
end

