-- ==== Sys2Proof/Machine/Demodulator.lean ====
section
/-! DEFINITION. The majority-vote bit demodulator: RX.RESET, RX.SAMPLE (43_demodulator.md). -/

namespace Sys2Proof.Machine

/-- RX.RESET on the receiver state (43_demodulator.md R150). -/
def rxResetOp (r : RxState) : RxState × List Event :=
  enterPhase .initializing
    { r with initCount := 0, startBuf := cleared, hist := Hist.zero, obsBuf := cleared, bitBuf := cleared,
             rxCorrected := false }

/-- A sample in INITIALIZING is discarded; the 30th ends the phase (43_demodulator.md R152). -/
def sampleInitializing (r : RxState) : RxState × List Event :=
  if r.initCount + 1 = initFrames then enterPhase .searching { r with initCount := r.initCount + 1 }
  else ({ r with initCount := r.initCount + 1 }, [])

/-- A sample in SEARCHING is fed to SYNC; at lock the receiver goes to RECEIVING (43_demodulator.md R153). -/
def sampleSearching (cfg : Config) (o : Bool) (r : RxState) : RxState × List Event :=
  if (sync cfg o r).2 then enterPhase .receiving (sync cfg o r).1 else ((sync cfg o r).1, [])

/-- Frame completion: decode `bitBuf`, report, return to SEARCHING (43_demodulator.md R155). -/
def completeFrame (r : RxState) : RxState × List Event :=
  let d := decVal (pack 29 r.bitBuf)
  let next := recover { r with rxCorrected := d.2 }
  (next.1, .rxPayload d.1 d.2 :: next.2)

/-- A complete group: vote, collect the bit, report progress, complete the frame at 29 bits
(43_demodulator.md R154). -/
def completeGroup (r : RxState) : RxState × List Event :=
  let bits := append r.bitBuf (maj3Val r.obsBuf)
  let r' := { r with bitBuf := bits, obsBuf := cleared }
  let progress := Event.rxProgress (BitVec.ofNat 5 bits.length)
  if bits.length = codewordBits then ((completeFrame r').1, progress :: (completeFrame r').2) else (r', [progress])

/-- A sample in RECEIVING: append, then test overrun, then a complete group (43_demodulator.md R154, R156). -/
def sampleReceiving (o : Bool) (r : RxState) : RxState × List Event :=
  let r' := { r with obsBuf := append r.obsBuf o }
  if r'.obsBuf.length > framesPerBit then recover r'
  else if r'.obsBuf.length = framesPerBit then completeGroup r'
  else (r', [])

/-- RX.SAMPLE on an observation: exactly one behaviour, selected by `rxState` as read at the start
(43_demodulator.md R151). -/
def observeOp (cfg : Config) (o : Bool) (r : RxState) : RxState × List Event :=
  match r.rxState with
  | .initializing => sampleInitializing r
  | .searching => sampleSearching cfg o r
  | .receiving => sampleReceiving o r

/-- RX.SAMPLE on the receiver state: binarize, then handle the observation (43_demodulator.md R151). -/
def rxSampleOp (cfg : Config) (lum : cfg.Sample) (r : RxState) : RxState × List Event :=
  observeOp cfg (binarize cfg lum) r

/-- RX.RESET (43_demodulator.md R150). -/
def execRxReset (s : State) : Host.Outcome State Fault Refusal := .next (runRx rxResetOp s)

/-- RX.SAMPLE (43_demodulator.md R151). -/
def execRxSample (lum : Lum) (s : State) : Host.Outcome State Fault Refusal :=
  .next (runRx (rxSampleOp blockConfig lum) s)

end Sys2Proof.Machine
end

