-- ==== Sys2Proof/Machine/Modulator.lean ====
section
/-! DEFINITION. The modulator and transmit scheduler: HEX2PL, TX.SEND, TX.TICK, TX.RESET (44_modulator.md). -/

namespace Sys2Proof.Machine

/-- The digit loop of HEX2PL, most significant digit first; none at the first character that is no digit
(44_modulator.md R170). -/
def hexLoop : List CharCode → Nat → Option Nat
  | [], v => some v
  | c :: cs, v =>
    match hexDigit c with
    | none => none
    | some d => hexLoop cs (v * 16 + d)

/-- The value of a string of exactly six hexadecimal digits (44_modulator.md R170). -/
def hexValue (len : BitVec 4) (ch : HexChars) : Option Nat :=
  if len.toNat = 6 then hexLoop (hexCharList ch) 0 else none

/-- The result of HEX2PL: `valid` and the payload, 0 when invalid (44_modulator.md R170). -/
def hexResult (len : BitVec 4) (ch : HexChars) : Event :=
  match hexValue len ch with
  | none => .resHex false 0#24
  | some v => .resHex true (BitVec.ofNat 24 v)

/-- `STAB_PATTERN ++ START_PATTERN ++ [c[1], ..., c[29]]` (30_encoding.md R74, 44_modulator.md R177). -/
def buildFrame (p : Payload) : Frame := pack 43 (stabPattern ++ startPattern ++ unpack (encVal p))

/-- The index of the frame is exhausted: the actuator is forced off, the timer cancelled, completion signalled
(44_modulator.md R178). -/
def endFrame (ok : Bool) (t : TxState) : TxState × List Event :=
  let call := actuate .txActOff ok t
  ({ call.1 with txPrev := false, txIndex := 0, txRun := false }, call.2 ++ [.txDone])

/-- The actuator command that takes the light to level `b` (44_modulator.md R178). -/
def levelCommand (cfg : Config) (b : Bool) : Event := if b then .txActOn cfg.txIntensity else .txActOff

/-- One frame bit is put on the wire: the actuator is called only if the bit differs from the previous one
(44_modulator.md R178). -/
def sendBit (cfg : Config) (ok : Bool) (t : TxState) : TxState × List Event :=
  let b := frameBit t.txFrame t.txIndex
  let call := if b = t.txPrev then (t, []) else actuate (levelCommand cfg b) ok t
  ({ call.1 with txPrev := b, txIndex := t.txIndex + 1 }, call.2)

/-- TICKWORK: index check, then optional actuator call (44_modulator.md R178). -/
def tickWork (cfg : Config) (ok : Bool) (t : TxState) : TxState × List Event :=
  if frameBits ≤ t.txIndex then endFrame ok t else sendBit cfg ok t

/-- An accepted TX.SEND before its first tick's work: the frame is latched, the timer armed (44_modulator.md R177). -/
def armFrame (p : Payload) (t : TxState) : TxState :=
  { t with txFrame := buildFrame p, txIndex := 0, txPrev := false, txFail := false, txRun := true }

/-- TX.SEND on the transmit state: BUSY before UNAVAILABLE; an accepted send does the first tick's work
(44_modulator.md R177). -/
def txSendOp (cfg : Config) (p : Payload) (avail ok : Bool) (t : TxState) : TxState × List Event :=
  if t.txRun then (t, [.txResult resultBusy])
  else if avail then
    ((tickWork cfg ok (armFrame p t)).1, .txResult resultOk :: (tickWork cfg ok (armFrame p t)).2)
  else (t, [.txResult resultUnavailable])

/-- TX.TICK on the transmit state: nothing while no timer is armed (44_modulator.md R178). -/
def txTickOp (cfg : Config) (ok : Bool) (t : TxState) : TxState × List Event :=
  if t.txRun then tickWork cfg ok t else (t, [])

/-- TX.RESET on the transmit state: an unconditional TX.ACT_OFF, the pipeline idle, `txFrame` kept
(44_modulator.md R179). -/
def txResetOp (t : TxState) : TxState × List Event :=
  ({ t with txRun := false, txIndex := 0, txPrev := false, txFail := false }, [.txActOff])

/-- HEX2PL (44_modulator.md R170). -/
def execHex2pl (len : BitVec 4) (ch : HexChars) (s : State) : Host.Outcome State Fault Refusal :=
  .next (emit [hexResult len ch] s)

/-- TX.RESET (44_modulator.md R179). -/
def execTxReset (s : State) : Host.Outcome State Fault Refusal := .next (runTx txResetOp s)

/-- TX.SEND (44_modulator.md R177). -/
def execTxSend (p : Payload) (avail ok : Bool) (s : State) : Host.Outcome State Fault Refusal :=
  .next (runTx (txSendOp blockConfig p avail ok) s)

/-- TX.TICK (44_modulator.md R178). -/
def execTxTick (ok : Bool) (s : State) : Host.Outcome State Fault Refusal :=
  .next (runTx (txTickOp blockConfig ok) s)

end Sys2Proof.Machine
end

