-- ==== Sys2Proof/Machine/Dispatch.lean ====
section
/-! DEFINITION. One arm per operation of 30_encoding.md R81. -/

namespace Sys2Proof.Machine

def exec (i : Instr) (s : State) : Host.Outcome State Fault Refusal :=
  match i with
  | .enc p => Sys2Proof.Machine.execEnc p s
  | .dec c => Sys2Proof.Machine.execDec c s
  | .bin l => Sys2Proof.Machine.execBin l s
  | .maj3 g => Sys2Proof.Machine.execMaj3 g s
  | .score w => Sys2Proof.Machine.execScore w s
  | .hex2pl len ch => Sys2Proof.Machine.execHex2pl len ch s
  | .rxReset => Sys2Proof.Machine.execRxReset s
  | .rxSample l => Sys2Proof.Machine.execRxSample l s
  | .txReset => Sys2Proof.Machine.execTxReset s
  | .txSend p avail ok => Sys2Proof.Machine.execTxSend p avail ok s
  | .txTick ok => Sys2Proof.Machine.execTxTick ok s

end Sys2Proof.Machine
end

