-- ==== Sys2Proof/WellFormed.lean ====
section
/-! DEFINITION. Which command words are operations (30_encoding.md R80, R81, R88), written from the mask and match
columns of R81. The decoder (Decode.lean) is written from the field positions instead, so that the two transcriptions
can be held against each other. Terms of `Instr` need no check: each operand has its field's width. -/

namespace Sys2Proof

/-- One row of the opcode map R81. -/
structure OpcodeRow where
  mnemonic : String
  mask : Cmd
  matchBits : Cmd
  deriving DecidableEq, Repr

/-- The rows of R81, in the order of the table. -/
def opcodeRows : List OpcodeRow :=
  [ { mnemonic := "ENC", mask := 0xFFFFFFFFFF000000, matchBits := 0x0100000000000000 },
    { mnemonic := "DEC", mask := 0xFFFFFFFFE0000000, matchBits := 0x0200000000000000 },
    { mnemonic := "BIN", mask := 0xFFFFFFFFFFFFFF00, matchBits := 0x0300000000000000 },
    { mnemonic := "MAJ3", mask := 0xFFFFFFFFFFFFFFF8, matchBits := 0x0400000000000000 },
    { mnemonic := "SCORE", mask := 0xFFFFFFFFFF000000, matchBits := 0x0500000000000000 },
    { mnemonic := "HEX2PL", mask := 0xFFF0000000000000, matchBits := 0x0600000000000000 },
    { mnemonic := "RX.RESET", mask := 0xFFFFFFFFFFFFFFFF, matchBits := 0x1000000000000000 },
    { mnemonic := "RX.SAMPLE", mask := 0xFFFFFFFFFFFFFF00, matchBits := 0x1100000000000000 },
    { mnemonic := "TX.RESET", mask := 0xFFFFFFFFFFFFFFFF, matchBits := 0x2000000000000000 },
    { mnemonic := "TX.SEND", mask := 0xFFFFFFFFFC000000, matchBits := 0x2100000000000000 },
    { mnemonic := "TX.TICK", mask := 0xFFFFFFFFFFFFFFFE, matchBits := 0x2200000000000000 } ]

/-- The mnemonic of an operation, as spec/opcode_table.json spells it. -/
def Instr.mnemonic : Instr → String
  | .enc _ => "ENC"
  | .dec _ => "DEC"
  | .bin _ => "BIN"
  | .maj3 _ => "MAJ3"
  | .score _ => "SCORE"
  | .hex2pl _ _ => "HEX2PL"
  | .rxReset => "RX.RESET"
  | .rxSample _ => "RX.SAMPLE"
  | .txReset => "TX.RESET"
  | .txSend _ _ _ => "TX.SEND"
  | .txTick _ => "TX.TICK"

/-- A word selects a row when `(cmd & mask) = match` (R81). -/
def OpcodeRow.selects (r : OpcodeRow) (w : Cmd) : Bool := (w &&& r.mask) == r.matchBits

/-- The rows a word selects. -/
def rowsSelected (w : Cmd) : List OpcodeRow := opcodeRows.filter (fun r => r.selects w)

/-- First check of R88: the opcode byte is one of the eleven listed. -/
def opcodeListed (w : Cmd) : Bool := opcodeRows.any (fun r => r.matchBits.extractLsb' 56 8 == w.extractLsb' 56 8)

/-- Second check of R88: no bit is set that the row of the word's opcode requires to be zero. -/
def reservedBitsZero (w : Cmd) : Bool :=
  opcodeRows.all (fun r => !(r.matchBits.extractLsb' 56 8 == w.extractLsb' 56 8) || r.selects w)

/-- A command word is an operation when it passes both checks; otherwise it is reserved (R88). -/
def wellFormedWord (w : Cmd) : Bool := opcodeListed w && reservedBitsZero w

end Sys2Proof
end

