-- ==== Sys2Proof/Decode.lean ====
section
/-! DEFINITION. The decoder, total on 64-bit command words (30_encoding.md R80 to R88), and after it the encoder, both
written from the operand field positions of R81 to R87. The table's bit numbering is that of the command word
(one 64-bit word, bit 0 least significant). -/

namespace Sys2Proof

/-- Why a command word is reserved (30_encoding.md R88). Raised by `decode`; the machine then takes the reserved
word's next state (`Sys2Proof.Machine.reservedWord`), so neither is a stop: safe. -/
inductive DecodeError where
  /-- The opcode byte is none of the eleven listed. -/
  | unlistedOpcode
  /-- The opcode is listed and a bit that its row requires to be zero is set. -/
  | mustBeZeroBitSet
  deriving DecidableEq, Repr

/-- `op` = cmd[63:56] (R80). -/
def opcodeOf (w : Cmd) : BitVec 8 := w.extractLsb' 56 8

/-- The operand fields of an operation occupy cmd[lo-1:0]; cmd[55:lo] must be 0 (R80). -/
def zeroAbove (w : Cmd) (lo : Nat) : Bool := w.extractLsb' lo (56 - lo) == 0#(56 - lo)

/-- The operation, if its must-be-zero bits are zero. -/
def accept (w : Cmd) (lo : Nat) (i : Instr) : Except DecodeError Instr :=
  if zeroAbove w lo then .ok i else .error .mustBeZeroBitSet

/-- The decoder: every word is one operation or reserved, by name (R80, R88). -/
def decode (w : Cmd) : Except DecodeError Instr :=
  match (opcodeOf w).toNat with
  | 0x01 => accept w 24 (.enc (w.extractLsb' 0 24))
  | 0x02 => accept w 29 (.dec (w.extractLsb' 0 29))
  | 0x03 => accept w 8 (.bin (w.extractLsb' 0 8))
  | 0x04 => accept w 3 (.maj3 (w.extractLsb' 0 3))
  | 0x05 => accept w 24 (.score (w.extractLsb' 0 24))
  | 0x06 => accept w 52 (.hex2pl (w.extractLsb' 48 4) (w.extractLsb' 0 48))
  | 0x10 => accept w 0 .rxReset
  | 0x11 => accept w 8 (.rxSample (w.extractLsb' 0 8))
  | 0x20 => accept w 0 .txReset
  | 0x21 => accept w 26 (.txSend (w.extractLsb' 0 24) (w.getLsbD 24) (w.getLsbD 25))
  | 0x22 => accept w 1 (.txTick (w.getLsbD 0))
  | _ => .error .unlistedOpcode

/-- One operand bit as a field of width 1. -/
def bitField (b : Bool) : BitVec 1 := BitVec.ofBool b

/-- The command word of an operation: the opcode byte, the must-be-zero bits, the operand fields right-aligned
(R80 to R87). -/
def encode : Instr → Cmd
  | .enc p => 0x01#8 ++ 0#32 ++ p
  | .dec c => 0x02#8 ++ 0#27 ++ c
  | .bin l => 0x03#8 ++ 0#48 ++ l
  | .maj3 g => 0x04#8 ++ 0#53 ++ g
  | .score w => 0x05#8 ++ 0#32 ++ w
  | .hex2pl len ch => 0x06#8 ++ 0#4 ++ len ++ ch
  | .rxReset => 0x10#8 ++ 0#56
  | .rxSample l => 0x11#8 ++ 0#48 ++ l
  | .txReset => 0x20#8 ++ 0#56
  | .txSend p avail ok => 0x21#8 ++ 0#30 ++ bitField ok ++ bitField avail ++ p
  | .txTick ok => 0x22#8 ++ 0#55 ++ bitField ok

/-- The command word that a table word of `nbits` bits stands for: bits at and above `nbits` are 0, and a word that
needs more than 64 bits is no command word (R80: there is one length). -/
def tableWord (nbits w : Nat) : Option Cmd :=
  if w % 2 ^ nbits < 2 ^ 64 then some (BitVec.ofNat 64 (w % 2 ^ nbits)) else none

/-- The operation the decoder reads from a word numbered as spec/opcode_table.json numbers it. -/
def decodeTableWord (nbits w : Nat) : Option Instr := (tableWord nbits w).bind (fun c => (decode c).toOption)

end Sys2Proof
end

