-- ==== Sys2Proof/Machine/Fetch.lean ====
section
/-! DEFINITION. How the next command word reaches the block. Nothing is fetched (00_scope.md R2): the environment
presents command words, which the model holds in `input`, next one first (notes/assumptions/3.md, 4.md). -/

namespace Sys2Proof.Machine

/-- The next command word and the state in which it is executed: the word has left the queue. None while no command
has arrived. -/
def nextCommand (s : State) : Option (Cmd × State) :=
  match s.input with
  | [] => none
  | w :: rest => some (w, { s with input := rest })

/-- The block while no command has arrived: nothing happens (notes/assumptions/3.md). -/
def idle (s : State) : State := s

/-- The environment presents `w` as the very next command word. -/
def present (w : Cmd) (s : State) : State := { s with input := w :: s.input }

/-- The environment presents the word of spec/opcode_table.json's numbering as the next command; a word that is no
64-bit command word is not presented. -/
def presentTableWord (s : State) (nbits w : Nat) : State :=
  match tableWord nbits w with
  | some c => present c s
  | none => s

end Sys2Proof.Machine
end

