-- ==== Sys2Proof/Machine/Step.lean ====
section
/-! DEFINITION. One step: the next command word is taken from the environment, decoded and executed; a reserved word
emits RES.ILLEGAL (30_encoding.md R80, R88); without a command the block stays as it is. -/

namespace Sys2Proof.Machine

/-- One atomic operation (20_memory.md R56). -/
def step (s : State) : Host.Outcome State Fault Refusal :=
  match nextCommand s with
  | none => .next (idle s)
  | some (w, s') =>
    match decode w with
    | .ok i => exec i s'
    | .error _ => .next (reservedWord s')

/-- `s` with the table word presented as the very next command (notes/assumptions/4.md). -/
def State.withFetchWord (s : State) (nbits w : Nat) : State := presentTableWord s nbits w

end Sys2Proof.Machine
end

