-- ==== Sys2Proof/Machine/Ports.lean ====
section
/-! DEFINITION. What a party outside can observe: the read-only status (10_state.md R35) and the ports each command and
event belongs to (R38). No definition here is read by a step: reading has no side effect (20_memory.md R57). -/

namespace Sys2Proof.Machine

/-- `rx_status`, 2 bits (10_state.md R22, R38). -/
def rxStatusPort (s : State) : BitVec 2 := statusCode s.rx.rxState

/-- The count an RX.PROGRESS event carries. -/
def progressOf : Event → Option (BitVec 5)
  | .rxProgress n => some n
  | _ => none

/-- `rx_progress`: the `n` of the latest RX.PROGRESS event, none before the first (10_state.md R38; DEDUCED,
notes/assumptions/8.md). -/
def rxProgressPort (s : State) : Option (BitVec 5) := (s.events.filterMap progressOf).getLast?

/-- The status flags a party outside can observe: `rxCorrected`, `txRun`, `txFail` (10_state.md R35). -/
def statusFlags (s : State) : Bool × Bool × Bool := (s.rx.rxCorrected, s.tx.txRun, s.tx.txFail)

/-- Which part of the block an operation or event belongs to: the receive pipeline, the transmit pipeline, or the pure
functions with the decoder (00_scope.md R14). -/
inductive Agent where
  | rx
  | tx
  | fn
  deriving DecidableEq, Repr

/-- The agent that executes an operation (00_scope.md R14). -/
def instrAgent : Instr → Agent
  | .enc _ => .fn
  | .dec _ => .fn
  | .bin _ => .fn
  | .maj3 _ => .fn
  | .score _ => .fn
  | .hex2pl _ _ => .fn
  | .rxReset => .rx
  | .rxSample _ => .rx
  | .txReset => .tx
  | .txSend _ _ _ => .tx
  | .txTick _ => .tx

/-- The agent that produces an event (30_encoding.md R90). -/
def eventAgent : Event → Agent
  | .resCw _ => .fn
  | .resPl _ _ => .fn
  | .resBit _ => .fn
  | .resScore _ => .fn
  | .resHex _ _ => .fn
  | .resIllegal => .fn
  | .rxStatus _ => .rx
  | .rxProgress _ => .rx
  | .rxPayload _ _ => .rx
  | .txResult _ => .tx
  | .txActOn _ => .tx
  | .txActOff => .tx
  | .txActFail => .tx
  | .txDone => .tx

/-- The events of one agent, in order (20_memory.md R56, R58, R59). -/
def eventsOf (a : Agent) (es : List Event) : List Event := es.filter (fun e => eventAgent e = a)

/-- The output ports of 10_state.md R38. -/
inductive OutPort where
  | rxStatus
  | rxProgress
  | rxPayload
  | txResult
  | act
  | txDone
  | fn
  deriving DecidableEq, Repr

/-- The output port of an event (10_state.md R38); the table names none for TX.ACT_FAIL and RES.ILLEGAL. -/
def eventPort : Event → Option OutPort
  | .resCw _ => some .fn
  | .resPl _ _ => some .fn
  | .resBit _ => some .fn
  | .resScore _ => some .fn
  | .resHex _ _ => some .fn
  | .resIllegal => none
  | .rxStatus _ => some .rxStatus
  | .rxProgress _ => some .rxProgress
  | .rxPayload _ _ => some .rxPayload
  | .txResult _ => some .txResult
  | .txActOn _ => some .act
  | .txActOff => some .act
  | .txActFail => none
  | .txDone => some .txDone

/-- What has appeared on one output port, in order. -/
def portEvents (p : OutPort) (s : State) : List Event := s.events.filter (fun e => eventPort e = some p)

/-- The level an actuator command asks for: activated or deactivated (10_state.md R32). -/
def commandLevel : Event → Option Bool
  | .txActOn _ => some true
  | .txActOff => some false
  | _ => none

/-- The level the block last commanded the actuator to take, none if it has issued no command
(44_modulator.md R181). -/
def lastLevel (es : List Event) : Option Bool := (es.filterMap commandLevel).getLast?

end Sys2Proof.Machine
end

