-- ==== Sys2Proof/Safety.lean ====
section
/-! DEFINITION. What counts as a good state and a good run, in the terms the claims use: the invariants of
10_state.md R37, the actuator's off guarantee (44_modulator.md R181), the frame in flight (20_memory.md R63), and tables
of the spec written out a second time, independently of the machine's own definitions. -/

namespace Sys2Proof.Machine

/-- A legal score: 0 or 16..24 (10_state.md R25, 42_synchronizer.md R134). -/
abbrev LegalScore (n : Nat) : Prop := n = 0 ∨ (16 ≤ n ∧ n ≤ 24)

/-- R37 (a). -/
abbrev RxState.InitClean (r : RxState) : Prop :=
  r.rxState = .initializing →
    r.initCount ≤ 29 ∧ r.startBuf = [] ∧ r.obsBuf = [] ∧ r.bitBuf = [] ∧ r.hist = Hist.zero

/-- R37 (b). -/
abbrev RxState.SettledCount (r : RxState) : Prop := r.rxState ≠ .initializing → r.initCount = 30

/-- R37 (c). -/
abbrev RxState.SearchClean (r : RxState) : Prop :=
  r.rxState = .searching →
    r.obsBuf = [] ∧ r.bitBuf = [] ∧ r.startBuf.length ≤ 24 ∧ r.hist.slot0 = 0 ∧
      (r.startBuf.length < 24 → r.hist = Hist.zero)

/-- R37 (d). -/
abbrev RxState.ReceiveClean (r : RxState) : Prop :=
  r.rxState = .receiving →
    r.startBuf = [] ∧ r.hist = Hist.zero ∧ r.obsBuf.length ≤ 2 ∧ r.bitBuf.length ≤ 28

/-- R37 (e). -/
abbrev Hist.Legal (h : Hist) : Prop := LegalScore h.slot0 ∧ LegalScore h.slot1 ∧ LegalScore h.slot2

/-- R37 (a) to (e). -/
abbrev RxState.Inv (r : RxState) : Prop :=
  r.InitClean ∧ r.SettledCount ∧ r.SearchClean ∧ r.ReceiveClean ∧ r.hist.Legal

/-- R37 (f). -/
abbrev TxState.IdleClean (t : TxState) : Prop := t.txRun = false → t.txPrev = false ∧ t.txIndex = 0

/-- R37 (g). -/
abbrev TxState.SendingClean (t : TxState) : Prop :=
  t.txRun = true → 1 ≤ t.txIndex ∧ t.txIndex ≤ 43 ∧ t.txPrev = frameBit t.txFrame (t.txIndex - 1)

/-- R37 (f) and (g). -/
abbrev TxState.Inv (t : TxState) : Prop := t.IdleClean ∧ t.SendingClean

/-- R37, all clauses. -/
abbrev State.Inv (s : State) : Prop := s.rx.Inv ∧ s.tx.Inv

/-- The level last commanded is `txPrev`; before any command the light is off (10_state.md R32). -/
abbrev State.ActuatorTracksPrev (s : State) : Prop := (lastLevel s.events).getD false = s.tx.txPrev

/-- "Whenever `txRun = 0` the last actuator command the block issued was TX.ACT_OFF or none at all"
(44_modulator.md R181). -/
abbrev State.OffWhenIdle (s : State) : Prop := s.tx.txRun = false → lastLevel s.events ≠ some true

/-- `THRESH_INT` is what the comparison makes it at eight bits, the width it is given for: the smallest bright sample
(00_scope.md R9). At any other width it is not read. -/
def Coherent (cfg : Config) : Prop := cfg.lumW = 8 → ∀ s, s < 256 → (realBright cfg s = true ↔ cfg.threshInt ≤ s)

/-- The XOR of the bits of a Codeword at a list of positions. -/
def xorAt (c : Codeword) (positions : List Nat) : Bool := positions.foldr (fun i x => (codeBit c i).xor x) false

/-- The check groups as 30_encoding.md R72 writes them out. -/
def checkGroupTable : List (Nat × List Nat) :=
  [ (1, [1, 3, 5, 7, 9, 11, 13, 15, 17, 19, 21, 23, 25, 27, 29]),
    (2, [2, 3, 6, 7, 10, 11, 14, 15, 18, 19, 22, 23, 26, 27]),
    (4, [4, 5, 6, 7, 12, 13, 14, 15, 20, 21, 22, 23, 28, 29]),
    (8, [8, 9, 10, 11, 12, 13, 14, 15, 24, 25, 26, 27, 28, 29]),
    (16, [16, 17, 18, 19, 20, 21, 22, 23, 24, 25, 26, 27, 28, 29]) ]

/-- A valid Codeword: the XOR over every check group is 0 (30_encoding.md R72). -/
def ValidCodeword (c : Codeword) : Prop := ∀ g ∈ checkGroupTable, xorAt c g.2 = false

/-- The syndrome as the sum of the `p` whose group has odd parity (40_codec.md R105). -/
def syndromeSum (c : Codeword) : Nat := (checkGroupTable.map (fun g => g.1 * (xorAt c g.2).toNat)).sum

/-- The Payload elements whose XOR is each parity bit, as 40_codec.md R102 lists them. -/
def parityTable : List (Nat × List Nat) :=
  [ (1, [0, 1, 3, 4, 6, 8, 10, 11, 13, 15, 17, 19, 21, 23]),
    (2, [0, 2, 3, 5, 6, 9, 10, 12, 13, 16, 17, 20, 21]),
    (4, [1, 2, 3, 7, 8, 9, 10, 14, 15, 16, 17, 22, 23]),
    (8, [4, 5, 6, 7, 8, 9, 10, 18, 19, 20, 21, 22, 23]),
    (16, [11, 12, 13, 14, 15, 16, 17, 18, 19, 20, 21, 22, 23]) ]

/-- The XOR of the Payload elements at a list of indexes. -/
def xorPayload (p : Payload) (ks : List Nat) : Bool := ks.foldr (fun k x => (payloadBit p k).xor x) false

/-- The expected bit of group `g`: 1 for even `g`, 0 for odd `g` (42_synchronizer.md R131). -/
def expectedBit (g : Nat) : Bool := decide (g % 2 = 0)

/-- How many of the three observations of group `g` of a window are `b` (42_synchronizer.md R131). -/
def groupCount (w : Window) (g : Nat) (b : Bool) : Nat :=
  (if w.getMsbD (3 * g) = b then 1 else 0) + (if w.getMsbD (3 * g + 1) = b then 1 else 0) +
    (if w.getMsbD (3 * g + 2) = b then 1 else 0)

/-- Every group has at least two observations equal to its expected bit (42_synchronizer.md R133). -/
def AllGroupsMatch (w : Window) : Prop := ∀ g, g < 8 → 2 ≤ groupCount w g (expectedBit g)

/-- The observations of a window that differ from the expected bit of their group (42_synchronizer.md R133). -/
def windowMismatches (w : Window) : Nat := ((List.range 8).map (fun g => groupCount w g (!expectedBit g))).sum

/-- The codes of the 22 hexadecimal characters with their values (30_encoding.md R76, D21). -/
def hexTable : List (Nat × Nat) :=
  [ (0x30, 0), (0x31, 1), (0x32, 2), (0x33, 3), (0x34, 4), (0x35, 5), (0x36, 6), (0x37, 7), (0x38, 8), (0x39, 9),
    (0x41, 10), (0x42, 11), (0x43, 12), (0x44, 13), (0x45, 14), (0x46, 15),
    (0x61, 10), (0x62, 11), (0x63, 12), (0x64, 13), (0x65, 14), (0x66, 15) ]

/-- The status code an RX.STATUS event carries (30_encoding.md R90). -/
def statusOf : Event → Option (BitVec 2)
  | .rxStatus c => some c
  | _ => none

/-- The bits of a sequence that differ from the one before them, the first compared with `prev`. -/
def levelChanges : Bool → List Bool → List Bool
  | _, [] => []
  | prev, b :: bs => if b = prev then levelChanges b bs else b :: levelChanges b bs

/-- A run of samples of the receive pipeline: the final state and all events in order. -/
def runSamples (cfg : Config) : List cfg.Sample → RxState → RxState × List Event
  | [], r => (r, [])
  | l :: ls, r =>
    let q := rxSampleOp cfg l r
    let t := runSamples cfg ls q.1
    (t.1, q.2 ++ t.2)

/-- A run of ticks of the transmit pipeline with the actuator's answers: the final state and all events in order. -/
def runTicks (cfg : Config) : List Bool → TxState → TxState × List Event
  | [], t => (t, [])
  | ok :: oks, t =>
    let q := txTickOp cfg ok t
    let u := runTicks cfg oks q.1
    (u.1, q.2 ++ u.2)

end Sys2Proof.Machine
end

