-- ==== Sys2Proof/Certificates/Slice0/Obligations.lean ====
section
/-! DEFINITION. The statements for the provers. -/

open Sys2Proof Sys2Proof.Machine

/-! ### The constants -/

/-- The hardwired constants fit together as 00_scope.md R8 has them, and `DATA_POS` is the ascending list of the
non-parity positions (30_encoding.md R71). -/
def Obligations.WireContractConstantsAgree : Prop :=
  stabPattern = [true, true, true, true, false, false] ∧
  startPattern = [true, false, true, false, true, false, true, false] ∧
  parityPos = [1, 2, 4, 8, 16] ∧ payloadBits = 24 ∧ codewordBits = 29 ∧ frameBits = 43 ∧ framesPerBit = 3 ∧
  syncWindow = 24 ∧ initFrames = 30 ∧
  dataPos = (List.range' 1 29).filter (fun i => decide (i ∉ parityPos)) ∧
  dataPos.length = payloadBits ∧ payloadBits + parityPos.length = codewordBits ∧
  stabPattern.length + startPattern.length + codewordBits = frameBits ∧
  startPattern.length * framesPerBit = syncWindow

/-! ### The codec -/

/-- The completion of ENC: its output has the payload bits at the data positions (40_codec.md §2, R101), and every check
group has even parity, which the spec derives from that rule (R103). -/
def Obligations.EncodeEmitsTheEvenParityCodeword : Prop :=
  ∀ (p : Payload) (s : State), ∃ c : Codeword,
    exec (.enc p) s = .next { s with events := s.events ++ [.resCw c] } ∧
    (∀ k, k < 24 → codeBit c (dataPos.getD k 0) = payloadBit p k) ∧ ValidCodeword c

/-- Each parity bit is the XOR of the Payload elements of the closed-form table (derived by the spec in 40_codec.md §2). -/
def Obligations.ParityBitsHaveTheClosedForm : Prop :=
  ∀ (p : Payload), ∀ g ∈ parityTable, codeBit (encVal p) g.1 = xorPayload p g.2

/-- ENC is linear over bitwise XOR (derived by the spec in 40_codec.md §2). -/
def Obligations.EncodeIsXorLinear : Prop :=
  ∀ p q : Payload, encVal (p ^^^ q) = encVal p ^^^ encVal q

/-- ENC is injective and its image is exactly the set of valid Codewords (derived by the spec in 40_codec.md §2). -/
def Obligations.EncodingsAreExactlyTheValidCodewords : Prop :=
  (∀ p q : Payload, encVal p = encVal q → p = q) ∧
  ∀ c : Codeword, ValidCodeword c ↔ ∃ p, encVal p = c

/-- R106: decoding an encoded Payload gives it back with `corrected = 0`. -/
def Obligations.DecodeOfEncodeReturnsThePayload : Prop :=
  ∀ (p : Payload) (s : State),
    exec (.dec (encVal p)) s = .next { s with events := s.events ++ [.resPl p false] }

/-- R107: flipping any one position of an encoded Payload and decoding gives the Payload with `corrected = 1`. -/
def Obligations.DecodeCorrectsEverySingleError : Prop :=
  ∀ (p : Payload) (k : Nat) (s : State), 1 ≤ k → k ≤ 29 →
    exec (.dec (encVal p ^^^ (1#29 <<< (29 - k)))) s = .next { s with events := s.events ++ [.resPl p true] }

/-- With exactly two wrong positions the decoded Payload is always wrong, and `corrected` says only whether the XOR of
the positions is a position (derived by the spec in 40_codec.md §4, "Two bit errors"). -/
def Obligations.TwoErrorsNeverDecodeToTheSentPayload : Prop :=
  ∀ (p : Payload) (a b : Nat), 1 ≤ a → a < b → b ≤ 29 →
    (decVal (encVal p ^^^ (1#29 <<< (29 - a)) ^^^ (1#29 <<< (29 - b)))).1 ≠ p ∧
    (decVal (encVal p ^^^ (1#29 <<< (29 - a)) ^^^ (1#29 <<< (29 - b)))).2 = decide (a ^^^ b ≤ 29)

/-- The result of DEC for every word, by the syndrome taken as the sum of the odd groups: one position is corrected for
1..29, none for 0, 30 and 31 (the last by the spec's decision D12); no state element is written. -/
def Obligations.DecodeResultFollowsTheSyndrome : Prop :=
  ∀ (c : Codeword) (s : State), ∃ (p : Payload) (corrected : Bool),
    exec (.dec c) s = .next { s with events := s.events ++ [.resPl p corrected] } ∧
    (1 ≤ syndromeSum c → syndromeSum c ≤ 29 → corrected = true ∧
      ∀ k, k < 24 → payloadBit p k =
        (codeBit c (dataPos.getD k 0)).xor (decide (dataPos.getD k 0 = syndromeSum c))) ∧
    (syndromeSum c = 0 ∨ 30 ≤ syndromeSum c → corrected = false ∧
      ∀ k, k < 24 → payloadBit p k = codeBit c (dataPos.getD k 0))

/-! ### Binarization, majority, score, hexadecimal -/

/-- BIN is bright exactly when `s/255 > 17/20` (the sample format and the strict comparison are the spec's decisions D4
and D5). -/
def Obligations.BinIsBrightAboveTheThreshold : Prop :=
  ∀ (l : Lum) (s : State),
    exec (.bin l) s = .next { s with events := s.events ++ [.resBit (decide (17 * 255 < 20 * l.toNat))] }

/-- At eight bits the strict and the non-strict comparison give the same function: any parameters that fit together
binarize at 217 (41_binarize_majority.md §1, decision D5). -/
def Obligations.StrictnessIsUnobservableAtEightBits : Prop :=
  ∀ cfg : Config, cfg.lumW = 8 → Coherent cfg → ∀ l : cfg.Sample, binarize cfg l = decide (217 ≤ l.toNat)

/-- R122: MAJ3 gives 1 when at least two of the three observations are 1. -/
def Obligations.Maj3IsTwoOfThree : Prop :=
  ∀ (g : Group) (s : State),
    exec (.maj3 g) s = .next { s with events := s.events ++
      [.resBit ((g.getLsbD 2 && g.getLsbD 1) || (g.getLsbD 2 && g.getLsbD 0) || (g.getLsbD 1 && g.getLsbD 0))] }

/-- R123: the voted bit of a group of three equals `b` exactly when at most one observation differs from `b`, so one
wrong observation is absorbed and two are not. -/
def Obligations.MajorityVoteAbsorbsOneWrongObservation : Prop :=
  ∀ x y z b : Bool, maj3Val [x, y, z] = b ↔ [x, y, z].count (!b) ≤ 1

/-- R133: SCORE gives 24 less the mismatching observations when every group majority-matches the start pattern, and 0
otherwise. -/
def Obligations.ScoreCountsMismatchesOfMatchingGroups : Prop :=
  ∀ (w : Window) (s : State), ∃ n : Nat, n < 32 ∧
    exec (.score w) s = .next { s with events := s.events ++ [.resScore (BitVec.ofNat 5 n)] } ∧
    (AllGroupsMatch w → n + windowMismatches w = 24) ∧ (¬ AllGroupsMatch w → n = 0)

/-- The range of the score: 0 exactly when some group fails, at least 16 and at most 24 otherwise; the values 1..15
never occur (derived by the spec in 42_synchronizer.md §2). -/
def Obligations.ScoreIsZeroOrSixteenToTwentyFour : Prop :=
  ∀ w : Window, LegalScore (scoreVal (windowObs w)) ∧ (0 < scoreVal (windowObs w) ↔ AllGroupsMatch w)

/-- HEX2PL is valid exactly for six characters of the 22 hexadecimal ones, and then nibble `k` of the payload is the
value of character `k`; an invalid result has payload 0. The accepted characters are the spec's decision D21; their
codes are PRESUMED, from general knowledge (notes/assumptions/13.md). -/
def Obligations.HexStringGivesItsSixDigits : Prop :=
  ∀ (len : BitVec 4) (ch : HexChars) (s : State), ∃ (valid : Bool) (p : Payload),
    exec (.hex2pl len ch) s = .next { s with events := s.events ++ [.resHex valid p] } ∧
    (valid = true ↔ len.toNat = 6 ∧
      ∀ k, k < 6 → ∃ d, ((ch.extractLsb' (40 - 8 * k) 8).toNat, d) ∈ hexTable) ∧
    (valid = true → ∀ k d, k < 6 → ((ch.extractLsb' (40 - 8 * k) 8).toNat, d) ∈ hexTable →
      (p.extractLsb' (20 - 4 * k) 4).toNat = d) ∧
    (valid = false → p = 0#24)

/-! ### The receiver -/

/-- RX.RESET from any state (the values are the spec's decisions D7 and D25). -/
def Obligations.RxResetGivesTheFreshSession : Prop :=
  ∀ s : State, exec .rxReset s = .next
    { s with
      rx := { rxState := .initializing, initCount := 0, startBuf := [], hist := ⟨0, 0, 0⟩, obsBuf := [], bitBuf := [],
              rxCorrected := false },
      events := s.events ++ [.rxStatus 0#2] }

/-- A sample in INITIALIZING is discarded whatever its value, and the 30th ends the phase (the moment is the spec's
decision D10). -/
def Obligations.SampleWhileInitializingIsDiscarded : Prop :=
  ∀ (l : Lum) (s : State), s.rx.rxState = .initializing →
    exec (.rxSample l) s = .next
      (if s.rx.initCount + 1 = 30 then
        { s with rx := { s.rx with rxState := .searching, initCount := 30 }, events := s.events ++ [.rxStatus 1#2] }
      else { s with rx := { s.rx with initCount := s.rx.initCount + 1 } })

/-- A sample in SEARCHING without lock: the buffer slides to the last 24 observations, the score of the observation is
pushed, nothing is emitted (42_synchronizer.md §3; pushing 0 while the buffer is short is decision D7). -/
def Obligations.SampleWithoutLockSlidesTheWindow : Prop :=
  ∀ (l : Lum) (s : State), s.rx.rxState = .searching → s.rx.hist.slot1 = 0 →
    ∀ (buf : List Bool) (a : Nat),
      buf = (s.rx.startBuf ++ [decide (217 ≤ l.toNat)]).drop (s.rx.startBuf.length + 1 - 24) →
      a = (if s.rx.startBuf.length + 1 < 24 then 0 else scoreVal buf) →
      exec (.rxSample l) s = .next
        { s with rx := { s.rx with startBuf := buf, hist := ⟨0, s.rx.hist.slot2, a⟩ } }

/-- A sample in SEARCHING with a positive slot 1 locks: the last `2 - j` observations are carried for the first index
`j` of the highest score, the start buffer and history are emptied, the phase is RECEIVING (42_synchronizer.md §3; the
tie-break is decision D8, the carry rule the heuristic U1). -/
def Obligations.LockCarriesByTheFirstHighestScore : Prop :=
  ∀ (l : Lum) (s : State), s.rx.rxState = .searching → 0 < s.rx.hist.slot1 →
    ∀ (buf : List Bool) (a : Nat) (j : Nat),
      buf = (s.rx.startBuf ++ [decide (217 ≤ l.toNat)]).drop (s.rx.startBuf.length + 1 - 24) →
      a = (if s.rx.startBuf.length + 1 < 24 then 0 else scoreVal buf) →
      j ≤ 2 →
      (∀ i, i < j → [s.rx.hist.slot1, s.rx.hist.slot2, a].getD i 0 < [s.rx.hist.slot1, s.rx.hist.slot2, a].getD j 0) →
      (∀ i, i ≤ 2 → [s.rx.hist.slot1, s.rx.hist.slot2, a].getD i 0 ≤ [s.rx.hist.slot1, s.rx.hist.slot2, a].getD j 0) →
      exec (.rxSample l) s = .next
        { s with
          rx := { s.rx with rxState := .receiving, startBuf := [], hist := ⟨0, 0, 0⟩,
                            obsBuf := buf.drop (buf.length - (2 - j)) },
          events := s.events ++ [.rxStatus 2#2] }

/-- Lock happens exactly two observations after the first non-zero score, whatever the accuracies in between, for every
carry rule and tie-break (derived by the spec in 42_synchronizer.md §4). -/
def Obligations.LockComesTwoSamplesAfterTheFirstScore : Prop :=
  ∀ (cfg : Config) (r : RxState) (a : Nat) (l₁ l₂ : cfg.Sample),
    r.rxState = .searching → r.hist = ⟨0, 0, a⟩ → 0 < a →
    (runSamples cfg [l₁] r).1.rxState = .searching ∧ (runSamples cfg [l₁] r).2 = [] ∧
    (runSamples cfg [l₁, l₂] r).1.rxState = .receiving ∧ (runSamples cfg [l₁, l₂] r).2 = [.rxStatus 2#2] ∧
    (runSamples cfg [l₁, l₂] r).1.startBuf = [] ∧ (runSamples cfg [l₁, l₂] r).1.hist = ⟨0, 0, 0⟩ ∧
    (runSamples cfg [l₁, l₂] r).1.obsBuf.length ≤ 2

/-- An isolated scoring window followed by two zero windows locks and carries the two most recent observations
(derived by the spec in 42_synchronizer.md §4; 90_conflicts.md C1). -/
def Obligations.IsolatedScoringWindowStillLocks : Prop :=
  ∀ (r : RxState) (a : Nat) (l₁ l₂ : Lum),
    r.rxState = .searching → r.startBuf.length = 24 → r.hist = ⟨0, 0, a⟩ → 0 < a →
    scoreVal (r.startBuf.drop 1 ++ [decide (217 ≤ l₁.toNat)]) = 0 →
    scoreVal (r.startBuf.drop 2 ++ [decide (217 ≤ l₁.toNat), decide (217 ≤ l₂.toNat)]) = 0 →
    runSamples blockConfig [l₁, l₂] r =
      ({ r with rxState := .receiving, startBuf := [], hist := ⟨0, 0, 0⟩,
                obsBuf := [decide (217 ≤ l₁.toNat), decide (217 ≤ l₂.toNat)] }, [.rxStatus 2#2])

/-- R143: while no window scores above 0 the receiver stays in SEARCHING for ever, emits nothing, and only the sliding
start buffer changes, for every carry rule and tie-break. -/
def Obligations.SearchNeverEndsWithoutAScore : Prop :=
  ∀ (cfg : Config) (ls : List cfg.Sample) (r : RxState),
    r.rxState = .searching → r.hist = ⟨0, 0, 0⟩ → r.startBuf.length ≤ 24 →
    (∀ n, 1 ≤ n → n ≤ ls.length → ∀ q, q = r.startBuf ++ (ls.take n).map (binarize cfg) → 24 ≤ q.length →
      scoreVal (q.drop (q.length - 24)) = 0) →
    runSamples cfg ls r =
      ({ r with startBuf := (r.startBuf ++ ls.map (binarize cfg)).drop (r.startBuf.length + ls.length - 24) }, [])

/-- A sample in RECEIVING that does not complete a group is appended (43_demodulator.md §3). -/
def Obligations.SampleOfAnIncompleteGroupIsAppended : Prop :=
  ∀ (l : Lum) (s : State), s.rx.rxState = .receiving → s.rx.obsBuf.length ≤ 1 →
    exec (.rxSample l) s = .next
      { s with rx := { s.rx with obsBuf := s.rx.obsBuf ++ [decide (217 ≤ l.toNat)] } }

/-- A sample in RECEIVING that completes a group, not the last of the frame: the majority bit is collected and progress
reported (43_demodulator.md §3; the count as the form of progress is decision D32). -/
def Obligations.SampleCompletingAGroupCollectsItsMajority : Prop :=
  ∀ (l : Lum) (s : State) (x y : Bool), s.rx.rxState = .receiving → s.rx.obsBuf = [x, y] → s.rx.bitBuf.length < 28 →
    ∀ o, o = decide (217 ≤ l.toNat) →
      exec (.rxSample l) s = .next
        { s with
          rx := { s.rx with obsBuf := [], bitBuf := s.rx.bitBuf ++ [(x && y) || (x && o) || (y && o)] },
          events := s.events ++ [.rxProgress (BitVec.ofNat 5 (s.rx.bitBuf.length + 1))] }

/-- The sample that completes the 29th data bit: the collected bits, first one at position 1, are decoded and reported
after the progress of the last bit, the flag takes `corrected`, the receiver searches again with empty buffers
(43_demodulator.md §3; the event order is decision D13, the flag D34). -/
def Obligations.SampleCompletingAFrameReportsItsPayload : Prop :=
  ∀ (l : Lum) (s : State) (x y : Bool) (c : Codeword),
    s.rx.rxState = .receiving → s.rx.obsBuf = [x, y] → s.rx.bitBuf.length = 28 →
    ∀ o, o = decide (217 ≤ l.toNat) →
      (∀ i, 1 ≤ i → i ≤ 29 →
        codeBit c i = (s.rx.bitBuf ++ [(x && y) || (x && o) || (y && o)]).getD (i - 1) false) →
      exec (.rxSample l) s = .next
        { s with
          rx := { s.rx with rxState := .searching, obsBuf := [], bitBuf := [], rxCorrected := (decVal c).2 },
          events := s.events ++ [.rxProgress 29#5, .rxPayload (decVal c).1 (decVal c).2, .rxStatus 1#2] }

/-- Overrun, from a state loaded from outside: both buffers are discarded and the receiver searches again, with the
status event only (43_demodulator.md §3; clearing `bitBuf` too is decision D11). -/
def Obligations.OverrunDiscardsTheFrame : Prop :=
  ∀ (l : Lum) (s : State), s.rx.rxState = .receiving → 3 ≤ s.rx.obsBuf.length →
    exec (.rxSample l) s = .next
      { s with rx := { s.rx with rxState := .searching, obsBuf := [], bitBuf := [] },
               events := s.events ++ [.rxStatus 1#2] }

/-- R149: the phase after every operation, from every state: the complete set of transitions. -/
def Obligations.ReceiverPhasesFollowTheTransitionTable : Prop :=
  ∀ (i : Instr) (s t : State), exec i s = .next t →
    (i = .rxReset → t.rx.rxState = .initializing) ∧
    (∀ l, i = .rxSample l →
      (s.rx.rxState = .initializing →
        t.rx.rxState = if s.rx.initCount = 29 then .searching else .initializing) ∧
      (s.rx.rxState = .searching → t.rx.rxState = if 0 < s.rx.hist.slot1 then .receiving else .searching) ∧
      (s.rx.rxState = .receiving →
        t.rx.rxState =
          if (s.rx.obsBuf.length = 2 ∧ s.rx.bitBuf.length = 28) ∨ 3 ≤ s.rx.obsBuf.length then .searching
          else .receiving)) ∧
    (instrAgent i ≠ .rx → t.rx.rxState = s.rx.rxState)

/-- Every change of `rxState` and every RX.RESET emits exactly one RX.STATUS with the new phase, and no other operation
emits one (60_exceptions.md §3). -/
def Obligations.EveryPhaseChangeIsReportedOnce : Prop :=
  ∀ (i : Instr) (s t : State), exec i s = .next t → ∃ es, t.events = s.events ++ es ∧
    (i = .rxReset ∨ t.rx.rxState ≠ s.rx.rxState → es.filterMap statusOf = [statusCode t.rx.rxState]) ∧
    (i ≠ .rxReset → t.rx.rxState = s.rx.rxState → es.filterMap statusOf = [])

/-- Once RECEIVING, exactly `3 * 29 - c` samples end the frame whatever their values: any shorter run stays in
RECEIVING, a run of exactly that many ends in SEARCHING with empty buffers and a payload report (derived by the spec in
43_demodulator.md §4). -/
def Obligations.FrameEndsAfterExactlyItsSamples : Prop :=
  ∀ (cfg : Config) (ls : List cfg.Sample) (r : RxState),
    r.rxState = .receiving → r.obsBuf.length ≤ 2 → r.bitBuf.length ≤ 28 →
    (ls.length + 3 * r.bitBuf.length + r.obsBuf.length < 87 → (runSamples cfg ls r).1.rxState = .receiving) ∧
    (ls.length + 3 * r.bitBuf.length + r.obsBuf.length = 87 →
      ∃ (es : List Event) (p : Payload) (c : Bool),
        runSamples cfg ls r =
          ({ r with rxState := .searching, obsBuf := [], bitBuf := [], rxCorrected := c },
            es ++ [.rxPayload p c, .rxStatus 1#2]))

/-! ### The transmitter -/

/-- A send during a transmission is refused with BUSY, whatever `avail`, and changes nothing (decision D17; the order of
the two tests is decision D13). -/
def Obligations.SendIsRefusedWhileSending : Prop :=
  ∀ (p : Payload) (avail ok : Bool) (s : State), s.tx.txRun = true →
    exec (.txSend p avail ok) s = .next { s with events := s.events ++ [.txResult 2#2] }

/-- A send with the actuator unavailable is refused and changes nothing (44_modulator.md §2). -/
def Obligations.SendIsRefusedWhenUnavailable : Prop :=
  ∀ (p : Payload) (ok : Bool) (s : State), s.tx.txRun = false →
    exec (.txSend p false ok) s = .next { s with events := s.events ++ [.txResult 1#2] }

/-- An accepted send latches preamble and Codeword, arms the timer and does the first tick's work: the light is
activated at full intensity (44_modulator.md §2; decisions D14, D16, D19, D37). -/
def Obligations.AcceptedSendStartsTheFrame : Prop :=
  ∀ (p : Payload) (ok : Bool) (s : State), s.tx.txRun = false →
    ∃ f : Frame,
      exec (.txSend p true ok) s = .next
        { s with
          tx := { txRun := true, txFrame := f, txIndex := 1, txPrev := true, txFail := !ok },
          events := s.events ++ ([.txResult 0#2, .txActOn 255#8] ++ if ok then [] else [.txActFail]) } ∧
      (∀ t, t < 14 → frameBit f t =
        [true, true, true, true, false, false, true, false, true, false, true, false, true, false].getD t false) ∧
      (∀ i, 1 ≤ i → i ≤ 29 → frameBit f (14 + (i - 1)) = codeBit (encVal p) i)

/-- A tick while no timer is armed does nothing (decision D26). -/
def Obligations.TickWhileIdleDoesNothing : Prop :=
  ∀ (ok : Bool) (s : State), s.tx.txRun = false → exec (.txTick ok) s = .next s

/-- A tick inside the frame puts the next bit on the wire: one actuator call, with its failure recorded, if the bit
differs from the previous one, and no call otherwise (44_modulator.md §2; decisions D16, D19, D37). -/
def Obligations.TickSendsTheNextFrameBit : Prop :=
  ∀ (ok : Bool) (s : State) (b : Bool), s.tx.txRun = true → s.tx.txIndex < 43 →
    b = s.tx.txFrame.getMsbD s.tx.txIndex →
    exec (.txTick ok) s = .next
      (if b = s.tx.txPrev then { s with tx := { s.tx with txIndex := s.tx.txIndex + 1 } }
      else
        { s with
          tx := { s.tx with txPrev := b, txIndex := s.tx.txIndex + 1, txFail := s.tx.txFail || !ok },
          events := s.events ++
            ([if b then .txActOn 255#8 else .txActOff] ++ if ok then [] else [.txActFail]) })

/-- The tick that finds the frame exhausted forces the actuator off, whatever the last bit was, cancels the timer and
signals completion (44_modulator.md §2; decision D15). -/
def Obligations.FinalTickForcesTheActuatorOff : Prop :=
  ∀ (ok : Bool) (s : State), s.tx.txRun = true → 43 ≤ s.tx.txIndex →
    exec (.txTick ok) s = .next
      { s with
        tx := { s.tx with txRun := false, txIndex := 0, txPrev := false, txFail := s.tx.txFail || !ok },
        events := s.events ++ ([.txActOff] ++ (if ok then [] else [.txActFail]) ++ [.txDone]) }

/-- TX.RESET from any state: an unconditional TX.ACT_OFF, the transmitter idle (decision D18). -/
def Obligations.TxResetAbortsWithTheActuatorOff : Prop :=
  ∀ s : State, exec .txReset s = .next
    { s with tx := { s.tx with txRun := false, txIndex := 0, txPrev := false, txFail := false },
             events := s.events ++ [.txActOff] }

/-- R182: a failed actuator call changes `txFail` and adds TX.ACT_FAIL, and nothing else: the run with `ok = 0` has the
same state but for the flag, and the same events but for TX.ACT_FAIL, which is there exactly when a call was made; the next
tick makes the same calls after both, so a failed transition is not repeated. -/
def Obligations.FailedCallChangesOnlyTheFlag : Prop :=
  ∀ (i : Bool → Instr) (s t₁ t₀ : State),
    ((∃ p avail, i = fun ok => .txSend p avail ok) ∨ i = fun ok => .txTick ok) →
    exec (i true) s = .next t₁ → exec (i false) s = .next t₀ →
    ∃ es₁ es₀, t₁.events = s.events ++ es₁ ∧ t₀.events = s.events ++ es₀ ∧
      t₀ = { t₁ with tx := { t₁.tx with txFail := t₀.tx.txFail }, events := t₀.events } ∧
      es₀.filter (fun e => decide (e ≠ .txActFail)) = es₁ ∧
      (es₁.filterMap commandLevel = [] → t₀ = t₁) ∧
      (es₁.filterMap commandLevel ≠ [] → t₀.tx.txFail = true ∧ es₀.count .txActFail = 1) ∧
      ∀ (ok : Bool) (u₁ u₀ : State), exec (.txTick ok) t₁ = .next u₁ → exec (.txTick ok) t₀ = .next u₀ →
        ∃ es, u₁.events = t₁.events ++ es ∧ u₀.events = t₀.events ++ es

/-- One transmission is one accepted send and exactly 43 ticks, whatever the actuator answers: after `n <= 42` ticks
the timer runs with `txIndex = n + 1` and the bit `n` on the wire, after 43 it is idle and TX.DONE is the last event
(derived by the spec in 44_modulator.md §3, "Timeline of one transmission"). -/
def Obligations.TransmissionTakesExactlyFortyThreeTicks : Prop :=
  ∀ (cfg : Config) (p : Payload) (ok : Bool) (t t₀ : TxState) (oks : List Bool),
    t.txRun = false → t₀ = (txSendOp cfg p true ok t).1 →
    (oks.length ≤ 42 →
      (runTicks cfg oks t₀).1.txRun = true ∧ (runTicks cfg oks t₀).1.txIndex = oks.length + 1 ∧
      (runTicks cfg oks t₀).1.txFrame = t₀.txFrame ∧
      (runTicks cfg oks t₀).1.txPrev = frameBit t₀.txFrame oks.length) ∧
    (oks.length = 43 →
      (runTicks cfg oks t₀).1.txRun = false ∧ (runTicks cfg oks t₀).1.txIndex = 0 ∧
      (runTicks cfg oks t₀).1.txPrev = false ∧ (runTicks cfg oks t₀).2.getLast? = some .txDone)

/-- During a transmission the actuator is called exactly at the bit transitions of the frame, starting from off,
whatever the actuator answers (derived by the spec in 44_modulator.md §3, "Timeline of one transmission"). -/
def Obligations.ActuatorCallsAreTheBitTransitions : Prop :=
  ∀ (cfg : Config) (p : Payload) (ok : Bool) (t : TxState) (oks : List Bool),
    t.txRun = false → oks.length ≤ 42 →
    ((txSendOp cfg p true ok t).2 ++ (runTicks cfg oks (txSendOp cfg p true ok t).1).2).filterMap commandLevel =
      levelChanges false ((List.range (oks.length + 1)).map (frameBit (buildFrame p)))

/-- The frame in flight never changes: `txFrame` is written by an accepted send and by nothing else, in any state
(20_memory.md §7). -/
def Obligations.OnlyAnAcceptedSendWritesTheFrame : Prop :=
  ∀ (i : Instr) (s t : State), exec i s = .next t →
    (s.tx.txRun = true → t.tx.txFrame = s.tx.txFrame) ∧
    (t.tx.txFrame = s.tx.txFrame ∨
      ∃ p ok, i = .txSend p true ok ∧ s.tx.txRun = false ∧ t.tx.txFrame = buildFrame p)

/-! ### The whole machine -/

/-- Every command word in every state has a next state: no step faults or is refused (60_exceptions.md §1). That a step
without a command is a next state is the model's choice (notes/assumptions/3.md). -/
def Obligations.EveryStepAnswersANextState : Prop :=
  ∀ s : State, ∃ t, step s = .next t

/-- A step executes the decoded operation on the state with the word taken from the queue; without a command it leaves
the state as it is. The queue and the idle step are the model's choice (notes/assumptions/3.md). -/
def Obligations.StepExecutesTheDecodedOperation : Prop :=
  (∀ (s : State) (w : Cmd) (rest : List Cmd) (i : Instr), s.input = w :: rest → decode w = .ok i →
    step s = exec i { s with input := rest }) ∧
  (∀ s : State, s.input = [] → step s = .next s)

/-- A reserved word changes no state and emits the single event RES.ILLEGAL; the word leaves the queue (decision D22).
That this is a next state, although the spec also says "the machine refuses it", is DEDUCED (notes/assumptions/9.md);
the queue is the model's choice (notes/assumptions/3.md). -/
def Obligations.ReservedWordOnlyReportsIllegal : Prop :=
  ∀ (s : State) (w : Cmd) (rest : List Cmd), s.input = w :: rest → wellFormedWord w = false →
    step s = .next { s with input := rest, events := s.events ++ [.resIllegal] }

/-- An operation touches only its own pipeline's record and adds only events of its own agent; the pure functions touch
neither record (10_state.md §1). -/
def Obligations.OperationsTouchOnlyTheirOwnRecord : Prop :=
  ∀ (i : Instr) (s t : State), exec i s = .next t →
    (instrAgent i ≠ .rx → t.rx = s.rx) ∧ (instrAgent i ≠ .tx → t.tx = s.tx) ∧ t.input = s.input ∧
    ∃ es, t.events = s.events ++ es ∧ ∀ e ∈ es, eventAgent e = instrAgent i

/-- What an operation does depends only on its own pipeline's record: not on the other record, not on the commands still
waiting, not on any event emitted before (10_state.md §1, 30_encoding.md §4). -/
def Obligations.OperationsReadOnlyTheirOwnRecord : Prop :=
  ∀ (i : Instr) (s s' t t' : State),
    (instrAgent i = .rx → s.rx = s'.rx) → (instrAgent i = .tx → s.tx = s'.tx) →
    exec i s = .next t → exec i s' = .next t' →
    ∃ es, t.events = s.events ++ es ∧ t'.events = s'.events ++ es ∧
      (instrAgent i = .rx → t.rx = t'.rx) ∧ (instrAgent i = .tx → t.tx = t'.tx)

/-- Operations of different agents commute: either order gives the same two records and the same event sequence of each
agent (20_memory.md §5, derived there). -/
def Obligations.OperationsOfDifferentAgentsCommute : Prop :=
  ∀ (i j : Instr) (s a ab b ba : State), instrAgent i ≠ instrAgent j →
    exec i s = .next a → exec j a = .next ab → exec j s = .next b → exec i b = .next ba →
    ab.rx = ba.rx ∧ ab.tx = ba.tx ∧ ab.input = ba.input ∧
    ∀ g : Agent, eventsOf g ab.events = eventsOf g ba.events

/-- The reset values the spec gives (10_state.md §9); `txFrame`, which it leaves unspecified, is not stated here. -/
def Obligations.ResetLeavesTheStatedValues : Prop :=
  State.reset.rx =
    { rxState := .initializing, initCount := 0, startBuf := [], hist := ⟨0, 0, 0⟩, obsBuf := [], bitBuf := [],
      rxCorrected := false } ∧
  State.reset.tx.txRun = false ∧ State.reset.tx.txIndex = 0 ∧ State.reset.tx.txPrev = false ∧
  State.reset.tx.txFail = false

/-- RX.RESET then TX.RESET, from any state, gives the reset values in every element but `txFrame`, and exactly the events
the model's reset holds (power-on reset is both operations: decision D25; the order and the events kept are
notes/assumptions/5.md). -/
def Obligations.BothResetsGiveThePowerOnState : Prop :=
  ∀ s : State, ∃ t, exec .rxReset s = .next t ∧
    exec .txReset t = .next
      { rx := State.reset.rx, tx := { State.reset.tx with txFrame := s.tx.txFrame },
        events := s.events ++ State.reset.events, input := s.input }

/-- The invariants of 10_state.md §7 hold at reset, and the light is off. -/
def Obligations.ResetStateIsGood : Prop :=
  State.reset.Inv ∧ State.reset.ActuatorTracksPrev ∧ State.reset.OffWhenIdle

/-- The invariants (a) to (g) of 10_state.md §7 are kept by every step from every state that has them (derived by the
spec there). -/
def Obligations.EveryStepKeepsTheInvariants : Prop :=
  ∀ s t : State, s.Inv → step s = .next t → t.Inv

/-- The receiver's invariants are kept by every sample for every carry rule with values 0..2, every tie-break and every
threshold (42_synchronizer.md §4, 93_implementation_defined.md U1 and U11). -/
def Obligations.SamplesKeepTheReceiverInvariantsForEveryConfig : Prop :=
  ∀ (cfg : Config) (l : cfg.Sample) (r : RxState), r.Inv → (rxSampleOp cfg l r).1.Inv

/-- Every step keeps `txPrev` equal to the level last commanded, and so, whenever no transmission runs, the last
actuator command is TX.ACT_OFF or none (10_state.md §3, 44_modulator.md §3, "The off guarantee"). -/
def Obligations.EveryStepKeepsTheOffGuarantee : Prop :=
  ∀ s t : State, s.tx.Inv → s.ActuatorTracksPrev → step s = .next t →
    t.tx.Inv ∧ t.ActuatorTracksPrev ∧ t.OffWhenIdle

/-! ### Encodings -/

/-- Command words written out from the field positions decode to the operations they stand for, and reserved words are
rejected (30_encoding.md §2, decision D2; the words are those of §5 and of 95_test_vectors.md V-RES-1). -/
def Obligations.SampleWordsDecode : Prop :=
  decode 0x0100000000ABCDEF#64 = .ok (.enc 0xABCDEF#24) ∧
  decode 0x0200000016978DEF#64 = .ok (.dec 0x16978DEF#29) ∧
  decode 0x0400000000000005#64 = .ok (.maj3 0b101#3) ∧
  decode 0x0606303030303041#64 = .ok (.hex2pl 6#4 0x303030303041#48) ∧
  decode 0x11000000000000FF#64 = .ok (.rxSample 0xFF#8) ∧
  decode 0x2100000002ABCDEF#64 = .ok (.txSend 0xABCDEF#24 false true) ∧
  decode 0x2200000000000001#64 = .ok (.txTick true) ∧
  decode 0x2300000000000000#64 = .error .unlistedOpcode ∧
  decode 0x2100000004ABCDEF#64 = .error .mustBeZeroBitSet

/-- Decoding an encoded operation gives it back, with every operand at every value (30_encoding.md §2, decision D2). -/
def Obligations.DecodeOfEncodeIsTheOperation : Prop :=
  ∀ i : Instr, decode (encode i) = .ok i

/-- Encoding a decoded word gives the word back: each operation has one word (30_encoding.md §2, decision D2). -/
def Obligations.EncodeOfDecodeIsTheWord : Prop :=
  ∀ (w : Cmd) (i : Instr), decode w = .ok i → encode i = w

/-- The decoder and the opcode map agree on every 64-bit word: a decoded word selects exactly the row of its operation's
mnemonic, a rejected word selects no row, and the two well-formedness checks say the same
(30_encoding.md §2 and §3, decisions D2 and D22). -/
def Obligations.DecoderAgreesWithTheOpcodeMap : Prop :=
  ∀ w : Cmd,
    (∀ i, decode w = .ok i → (rowsSelected w).map OpcodeRow.mnemonic = [i.mnemonic] ∧ wellFormedWord w = true) ∧
    (∀ e, decode w = .error e → rowsSelected w = [] ∧ wellFormedWord w = false)

/-! ### Parameters -/

/-- Binarization at every width of the luminance port: a sample `s` of `LUM_W` bits is bright exactly when
`s / (2^LUM_W - 1)` is above 17/20, or not below it where the comparison is not strict (00_scope.md §4,
41_binarize_majority.md §1, decisions D4 and D5; that the comparison of the real value holds at widths other than 8 is
the model's reading, notes/assumptions/6.md). -/
def Obligations.BinarizationComparesTheRealValue : Prop :=
  ∀ cfg : Config, 0 < cfg.lumW → Coherent cfg → ∀ l : cfg.Sample,
    (binarize cfg l = true ↔
      if cfg.threshStrict then (17 : ℚ) / 20 < (l.toNat : ℚ) / ((2 : ℚ) ^ cfg.lumW - 1)
      else (17 : ℚ) / 20 ≤ (l.toNat : ℚ) / ((2 : ℚ) ^ cfg.lumW - 1))

/-- No sample of any width stands for 17/20 exactly, so whether the comparison is strict cannot be observed at any width
of the port (the spec says so for eight bits, 41_binarize_majority.md §1; for the other widths it follows from
`s / (2^LUM_W - 1)` having an odd denominator, and the comparison there is notes/assumptions/6.md). -/
def Obligations.StrictnessIsUnobservableAtEveryWidth : Prop :=
  ∀ cfg : Config, 0 < cfg.lumW → ∀ s : Nat,
    realBright { cfg with threshStrict := true } s = realBright { cfg with threshStrict := false } s
end

