-- ==== Sys2Proof/Laws/State.lean ====
section
/-! SUPPORT. One lemma per field per update of the shared operations, so that no later proof unfolds a record update. -/

namespace Sys2Proof.Machine

section Constants

@[simp] theorem codewordBits_eq : codewordBits = 29 := rfl
@[simp] theorem frameBits_eq : frameBits = 43 := rfl
@[simp] theorem framesPerBit_eq : framesPerBit = 3 := rfl
@[simp] theorem syncWindow_eq : syncWindow = 24 := rfl
@[simp] theorem initFrames_eq : initFrames = 30 := rfl

end Constants

section Emit
variable (es fs : List Event) (s : State)

@[simp] theorem emit_rx : (emit es s).rx = s.rx := rfl
@[simp] theorem emit_tx : (emit es s).tx = s.tx := rfl
@[simp] theorem emit_input : (emit es s).input = s.input := rfl
@[simp] theorem emit_events : (emit es s).events = s.events ++ es := rfl

/-- Emitting twice is emitting both lists in order. -/
theorem emit_emit : emit fs (emit es s) = emit (es ++ fs) s := by simp [emit]

end Emit

section Run
variable (f : RxState → RxState × List Event) (g : TxState → TxState × List Event) (s : State)

@[simp] theorem runRx_rx : (runRx f s).rx = (f s.rx).1 := rfl
@[simp] theorem runRx_tx : (runRx f s).tx = s.tx := rfl
@[simp] theorem runRx_input : (runRx f s).input = s.input := rfl
@[simp] theorem runRx_events : (runRx f s).events = s.events ++ (f s.rx).2 := rfl
@[simp] theorem runTx_rx : (runTx g s).rx = s.rx := rfl
@[simp] theorem runTx_tx : (runTx g s).tx = (g s.tx).1 := rfl
@[simp] theorem runTx_input : (runTx g s).input = s.input := rfl
@[simp] theorem runTx_events : (runTx g s).events = s.events ++ (g s.tx).2 := rfl

end Run

section Phase
variable (p : RxPhase) (r : RxState)

@[simp] theorem enterPhase_rxState : (enterPhase p r).1.rxState = p := rfl
@[simp] theorem enterPhase_initCount : (enterPhase p r).1.initCount = r.initCount := rfl
@[simp] theorem enterPhase_startBuf : (enterPhase p r).1.startBuf = r.startBuf := rfl
@[simp] theorem enterPhase_hist : (enterPhase p r).1.hist = r.hist := rfl
@[simp] theorem enterPhase_obsBuf : (enterPhase p r).1.obsBuf = r.obsBuf := rfl
@[simp] theorem enterPhase_bitBuf : (enterPhase p r).1.bitBuf = r.bitBuf := rfl
@[simp] theorem enterPhase_rxCorrected : (enterPhase p r).1.rxCorrected = r.rxCorrected := rfl
@[simp] theorem enterPhase_events : (enterPhase p r).2 = [.rxStatus (statusCode p)] := rfl

@[simp] theorem recover_rxState : (recover r).1.rxState = .searching := rfl
@[simp] theorem recover_initCount : (recover r).1.initCount = r.initCount := rfl
@[simp] theorem recover_startBuf : (recover r).1.startBuf = r.startBuf := rfl
@[simp] theorem recover_hist : (recover r).1.hist = r.hist := rfl
@[simp] theorem recover_obsBuf : (recover r).1.obsBuf = [] := rfl
@[simp] theorem recover_bitBuf : (recover r).1.bitBuf = [] := rfl
@[simp] theorem recover_rxCorrected : (recover r).1.rxCorrected = r.rxCorrected := rfl
@[simp] theorem recover_events : (recover r).2 = [.rxStatus 1#2] := rfl

end Phase

section Actuator
variable (e : Event) (ok : Bool) (t : TxState)

@[simp] theorem actuate_txRun : (actuate e ok t).1.txRun = t.txRun := rfl
@[simp] theorem actuate_txFrame : (actuate e ok t).1.txFrame = t.txFrame := rfl
@[simp] theorem actuate_txIndex : (actuate e ok t).1.txIndex = t.txIndex := rfl
@[simp] theorem actuate_txPrev : (actuate e ok t).1.txPrev = t.txPrev := rfl
@[simp] theorem actuate_txFail : (actuate e ok t).1.txFail = (t.txFail || !ok) := rfl

@[simp] theorem endFrame_txRun : (endFrame ok t).1.txRun = false := rfl
@[simp] theorem endFrame_txFrame : (endFrame ok t).1.txFrame = t.txFrame := rfl
@[simp] theorem endFrame_txIndex : (endFrame ok t).1.txIndex = 0 := rfl
@[simp] theorem endFrame_txPrev : (endFrame ok t).1.txPrev = false := rfl
@[simp] theorem endFrame_txFail : (endFrame ok t).1.txFail = (t.txFail || !ok) := rfl

variable (cfg : Config)

@[simp] theorem sendBit_txRun : (sendBit cfg ok t).1.txRun = t.txRun := by
  by_cases h : frameBit t.txFrame t.txIndex = t.txPrev <;> simp [sendBit, h]
@[simp] theorem sendBit_txFrame : (sendBit cfg ok t).1.txFrame = t.txFrame := by
  by_cases h : frameBit t.txFrame t.txIndex = t.txPrev <;> simp [sendBit, h]
@[simp] theorem sendBit_txIndex : (sendBit cfg ok t).1.txIndex = t.txIndex + 1 := rfl
@[simp] theorem sendBit_txPrev : (sendBit cfg ok t).1.txPrev = frameBit t.txFrame t.txIndex := rfl

variable (p : Payload)

@[simp] theorem armFrame_txRun : (armFrame p t).txRun = true := rfl
@[simp] theorem armFrame_txFrame : (armFrame p t).txFrame = buildFrame p := rfl
@[simp] theorem armFrame_txIndex : (armFrame p t).txIndex = 0 := rfl
@[simp] theorem armFrame_txPrev : (armFrame p t).txPrev = false := rfl
@[simp] theorem armFrame_txFail : (armFrame p t).txFail = false := rfl

end Actuator

section Input
variable (w : Cmd) (s : State)

@[simp] theorem present_rx : (present w s).rx = s.rx := rfl
@[simp] theorem present_tx : (present w s).tx = s.tx := rfl
@[simp] theorem present_events : (present w s).events = s.events := rfl
@[simp] theorem present_input : (present w s).input = w :: s.input := rfl

/-- The word just presented is the next one, and presenting it changed nothing else. -/
@[simp] theorem nextCommand_present : nextCommand (present w s) = some (w, s) := rfl

@[simp] theorem reservedWord_rx : (reservedWord s).rx = s.rx := rfl
@[simp] theorem reservedWord_tx : (reservedWord s).tx = s.tx := rfl
@[simp] theorem reservedWord_input : (reservedWord s).input = s.input := rfl
@[simp] theorem reservedWord_events : (reservedWord s).events = s.events ++ [.resIllegal] := rfl

end Input

end Sys2Proof.Machine
end

