-- ==== Sys2Proof/Laws/Sequences.lean ====
section
/-! SUPPORT. Packing (00_scope.md R11) and the buffer primitives (20_memory.md R52): what each gives, said once. -/

namespace Sys2Proof.Machine

@[simp] theorem append_length (q : List Bool) (b : Bool) : (append q b).length = q.length + 1 := by simp [append]

@[simp] theorem cleared_eq : cleared = [] := rfl

@[simp] theorem lastN_length (q : List Bool) (n : Nat) : (lastN q n).length = min n q.length := by
  simp [lastN]; omega

theorem truncate_length (q : List Bool) (n : Nat) : (truncate q n).length = min n q.length := by
  unfold truncate
  split
  · simp
  · omega

/-- Truncating is dropping everything before the last `n` elements. -/
theorem truncate_eq_drop (q : List Bool) (n : Nat) : truncate q n = q.drop (q.length - n) := by
  unfold truncate lastN
  split
  · rfl
  · rw [show q.length - n = 0 by omega, List.drop_zero]

@[simp] theorem unpack_length {n : Nat} (v : BitVec n) : (unpack v).length = n := by simp [unpack]

theorem unpack_getD {n : Nat} (v : BitVec n) (k : Nat) : (unpack v).getD k false = v.getMsbD k := by
  by_cases h : k < n
  · simp [unpack, List.getD, h]
  · simp [unpack, List.getD, h, BitVec.getMsbD_of_ge _ _ (Nat.le_of_not_lt h)]

theorem packNat_foldl (q : List Bool) (v : Nat) :
    q.foldl (fun v b => 2 * v + b.toNat) v = v * 2 ^ q.length + packNat q := by
  unfold packNat
  induction q generalizing v with
  | nil => simp
  | cons b q ih =>
    rw [List.foldl_cons, ih, List.foldl_cons, ih (2 * 0 + b.toNat), List.length_cons, Nat.pow_succ]
    ring

/-- The first element is the most significant bit. -/
theorem packNat_cons (b : Bool) (q : List Bool) : packNat (b :: q) = b.toNat * 2 ^ q.length + packNat q := by
  have h := packNat_foldl q (2 * 0 + b.toNat)
  simpa [packNat] using h

theorem packNat_lt (q : List Bool) : packNat q < 2 ^ q.length := by
  induction q with
  | nil => simp [packNat]
  | cons b q ih => rw [packNat_cons, List.length_cons, Nat.pow_succ]; cases b <;> simp <;> omega

/-- Bit `j` from the least significant end is the `j`-th element from the end. -/
theorem packNat_testBit (q : List Bool) (j : Nat) (h : j < q.length) :
    (packNat q).testBit j = q.getD (q.length - 1 - j) false := by
  induction q with
  | nil => simp at h
  | cons b q ih =>
    rw [packNat_cons, Nat.mul_comm, Nat.testBit_two_pow_mul_add _ (packNat_lt q)]
    by_cases hj : j < q.length
    · rw [if_pos hj, ih hj, show (b :: q).length - 1 - j = q.length - 1 - j + 1 by simp; omega]
      rfl
    · obtain rfl : j = q.length := by simp at h; omega
      rw [if_neg hj]
      cases b <;> simp

/-- Element `k` of a packed sequence of the right length is its element `k` (00_scope.md R11). -/
theorem pack_getMsbD (n : Nat) (q : List Bool) (hn : q.length = n) (k : Nat) :
    (pack n q).getMsbD k = q.getD k false := by
  subst hn
  by_cases hk : k < q.length
  · have hlt : q.length - 1 - k < q.length := by omega
    rw [BitVec.getMsbD_eq_getLsbD, pack, BitVec.getLsbD_ofNat, packNat_testBit q _ hlt,
      show q.length - 1 - (q.length - 1 - k) = k by omega]
    simp [hk, hlt]
  · simp [List.getD, hk, BitVec.getMsbD_of_ge _ _ (Nat.le_of_not_lt hk)]

/-- `pack` inverts `unpack` (00_scope.md R11). -/
theorem pack_unpack {n : Nat} (v : BitVec n) : pack n (unpack v) = v := by
  apply BitVec.eq_of_getMsbD_eq
  intro k _
  rw [pack_getMsbD n _ (unpack_length v), unpack_getD]

end Sys2Proof.Machine
end

