-- ==== Sys2Proof/Laws/Codec.lean ====
section
/-! SUPPORT. The codec's shared operations: Codeword positions under writes, and check-group parity under writes and
under XOR. Later proofs argue about positions and groups and do not unfold the bit vector. -/

namespace Sys2Proof.Machine

section Positions

/-- Positions are the elements of the packed word (30_encoding.md R71): two words that agree at all are equal. -/
theorem codeBit_ext {a b : Codeword} (h : ∀ i, 1 ≤ i → i ≤ 29 → codeBit a i = codeBit b i) : a = b := by
  apply BitVec.eq_of_getMsbD_eq
  intro k hk
  simpa [codeBit] using h (k + 1) (by omega) (by omega)

theorem codeBit_posMask (i j : Nat) (hi : 1 ≤ i) (hi' : i ≤ 29) (hj : 1 ≤ j) (hj' : j ≤ 29) :
    codeBit (posMask i) j = decide (j = i) := by
  interval_cases i <;> interval_cases j <;> decide

theorem codeBit_xor (a b : Codeword) (i : Nat) : codeBit (a ^^^ b) i = (codeBit a i).xor (codeBit b i) := by
  simp [codeBit]

/-- Writing one position changes that position only. -/
theorem codeBit_setCodeBit (c : Codeword) (i j : Nat) (b : Bool) (hi : 1 ≤ i) (hi' : i ≤ 29) (hj : 1 ≤ j)
    (hj' : j ≤ 29) : codeBit (setCodeBit c i b) j = if j = i then b else codeBit c j := by
  have hm := codeBit_posMask i j hi hi' hj hj'
  have hlt : j - 1 < 29 := by omega
  unfold setCodeBit codeBit at *
  by_cases h : j = i <;> cases b <;> simp [h, hm, hlt] <;> simp_all

/-- Flipping a position is XOR with its mask. -/
theorem flipCodeBit_eq_xor (c : Codeword) (i : Nat) (hi : 1 ≤ i) (hi' : i ≤ 29) : flipCodeBit c i = c ^^^ posMask i := by
  apply codeBit_ext
  intro j hj hj'
  rw [flipCodeBit, codeBit_setCodeBit c i j _ hi hi' hj hj', codeBit_xor, codeBit_posMask i j hi hi' hj hj']
  by_cases h : j = i <;> simp [h]

/-- A run of position writes, seen at one position: the last write to it wins. -/
theorem codeBit_foldl_set (f : Nat → Bool) (l : List (Nat × Nat)) (c : Codeword) (j : Nat) (hj : 1 ≤ j) (hj' : j ≤ 29)
    (hl : ∀ ik ∈ l, 1 ≤ ik.1 ∧ ik.1 ≤ 29) :
    codeBit (l.foldl (fun c ik => setCodeBit c ik.1 (f ik.2)) c) j =
      l.foldl (fun v ik => if j = ik.1 then f ik.2 else v) (codeBit c j) := by
  induction l generalizing c with
  | nil => rfl
  | cons ik l ih =>
    rw [List.foldl_cons, List.foldl_cons, ih _ (fun x hx => hl x (List.mem_cons_of_mem _ hx)),
      codeBit_setCodeBit c ik.1 j _ (hl ik List.mem_cons_self).1 (hl ik List.mem_cons_self).2 hj hj']

end Positions

section Groups

/-- The check groups computed from the bit test are the ones 30_encoding.md R72 writes out. -/
theorem checkGroup_eq_table : checkGroupTable = parityPos.map (fun q => (q, checkGroup q)) := by decide

theorem checkGroup_range (q i : Nat) (h : i ∈ checkGroup q) : 1 ≤ i ∧ i ≤ 29 := by
  simp [checkGroup] at h; omega

theorem xorAll_foldl (l : List Bool) (b : Bool) : l.foldl Bool.xor b = b.xor (xorAll l) := by
  unfold xorAll
  induction l generalizing b with
  | nil => simp
  | cons a l ih => rw [List.foldl_cons, ih, List.foldl_cons, ih (Bool.xor false a)]; simp

@[simp] theorem xorAll_nil : xorAll [] = false := rfl

@[simp] theorem xorAll_cons (a : Bool) (l : List Bool) : xorAll (a :: l) = a.xor (xorAll l) := by
  have h := xorAll_foldl l a
  simpa [xorAll] using h

theorem xorAll_map_codeBit (c : Codeword) (l : List Nat) : xorAll (l.map (codeBit c)) = xorAt c l := by
  induction l with
  | nil => rfl
  | cons i l ih => rw [List.map_cons, xorAll_cons, ih]; rfl

/-- The machine's group parity is the XOR over the table's group. -/
theorem groupParity_eq_xorAt (c : Codeword) (q : Nat) : groupParity c q = xorAt c (checkGroup q) :=
  xorAll_map_codeBit c _

theorem xorAt_xor (a b : Codeword) (l : List Nat) : xorAt (a ^^^ b) l = (xorAt a l).xor (xorAt b l) := by
  induction l with
  | nil => rfl
  | cons i l ih =>
    simp only [xorAt, List.foldr_cons] at *
    rw [ih, codeBit_xor]
    cases codeBit a i <;> cases codeBit b i <;> simp

/-- Group parity is linear over XOR. -/
theorem groupParity_xor (a b : Codeword) (q : Nat) :
    groupParity (a ^^^ b) q = (groupParity a q).xor (groupParity b q) := by
  simp only [groupParity_eq_xorAt, xorAt_xor]

/-- Position `i` counts in the groups whose bit it has (30_encoding.md R72). -/
theorem groupParity_posMask (i q : Nat) (hi : 1 ≤ i) (hi' : i ≤ 29) (hq : q ∈ parityPos) :
    groupParity (posMask i) q = decide (i &&& q ≠ 0) := by
  simp only [parityPos, List.mem_cons, List.not_mem_nil, or_false] at hq
  rcases hq with rfl | rfl | rfl | rfl | rfl <;> interval_cases i <;> decide

/-- Writing a position outside a group leaves the group's parity. -/
theorem groupParity_set_of_not_mem (c : Codeword) (i q : Nat) (b : Bool) (hi : 1 ≤ i) (hi' : i ≤ 29)
    (h : i ∉ checkGroup q) : groupParity (setCodeBit c i b) q = groupParity c q := by
  unfold groupParity
  congr 1
  apply List.map_congr_left
  intro j hj
  have hr := checkGroup_range q j hj
  rw [codeBit_setCodeBit c i j b hi hi' hr.1 hr.2, if_neg]
  rintro rfl
  exact h hj

end Groups

section Encoder

/-- The word before parity, position by position (40_codec.md R101). -/
theorem codeBit_placeData (p : Payload) (j : Nat) (hj : 1 ≤ j) (hj' : j ≤ 29) :
    codeBit (placeData p) j =
      dataPos.zipIdx.foldl (fun v ik => if j = ik.1 then payloadBit p ik.2 else v) false := by
  unfold placeData
  rw [codeBit_foldl_set (payloadBit p) _ _ j hj hj' (by decide)]
  simp [codeBit]

/-- Payload element `k` is placed at `DATA_POS[k]`. -/
theorem codeBit_placeData_data (p : Payload) (k : Nat) (hk : k < 24) :
    codeBit (placeData p) (dataPos.getD k 0) = payloadBit p k := by
  interval_cases k <;> exact codeBit_placeData p _ (by decide) (by decide)

/-- Parity positions hold 0 before the parity bits are written (40_codec.md R101, D31). -/
theorem codeBit_placeData_parity (p : Payload) (q : Nat) (hq : q ∈ parityPos) : codeBit (placeData p) q = false := by
  simp only [parityPos, List.mem_cons, List.not_mem_nil, or_false] at hq
  rcases hq with rfl | rfl | rfl | rfl | rfl <;> exact codeBit_placeData p _ (by decide) (by decide)

/-- Each parity bit is the parity of its group over the placed data alone: the order of evaluation has no effect
(40_codec.md R102). -/
theorem encVal_eq_sets (p : Payload) :
    encVal p = parityPos.foldl (fun c q => setCodeBit c q (groupParity (placeData p) q)) (placeData p) := by
  have h1 (c b q) (h : 1 ∉ checkGroup q) := groupParity_set_of_not_mem c 1 q b (by decide) (by decide) h
  have h2 (c b q) (h : 2 ∉ checkGroup q) := groupParity_set_of_not_mem c 2 q b (by decide) (by decide) h
  have h4 (c b q) (h : 4 ∉ checkGroup q) := groupParity_set_of_not_mem c 4 q b (by decide) (by decide) h
  have h8 (c b q) (h : 8 ∉ checkGroup q) := groupParity_set_of_not_mem c 8 q b (by decide) (by decide) h
  simp only [encVal, parityPos, List.foldl_cons, List.foldl_nil, placeParity]
  rw [h1 _ _ 2 (by decide), h2 _ _ 4 (by decide), h1 _ _ 4 (by decide), h4 _ _ 8 (by decide), h2 _ _ 8 (by decide),
    h1 _ _ 8 (by decide), h8 _ _ 16 (by decide), h4 _ _ 16 (by decide), h2 _ _ 16 (by decide), h1 _ _ 16 (by decide)]

/-- The Codeword of a Payload, position by position. -/
theorem codeBit_encVal (p : Payload) (j : Nat) (hj : 1 ≤ j) (hj' : j ≤ 29) :
    codeBit (encVal p) j = if j ∈ parityPos then groupParity (placeData p) j else codeBit (placeData p) j := by
  rw [encVal_eq_sets]
  simp only [parityPos, List.foldl_cons, List.foldl_nil]
  rw [codeBit_setCodeBit _ 16 j _ (by decide) (by decide) hj hj', codeBit_setCodeBit _ 8 j _ (by decide) (by decide) hj hj',
    codeBit_setCodeBit _ 4 j _ (by decide) (by decide) hj hj', codeBit_setCodeBit _ 2 j _ (by decide) (by decide) hj hj',
    codeBit_setCodeBit _ 1 j _ (by decide) (by decide) hj hj']
  simp only [List.mem_cons, List.not_mem_nil, or_false]
  by_cases h16 : j = 16
  · simp [h16]
  by_cases h8 : j = 8
  · simp [h8]
  by_cases h4 : j = 4
  · simp [h4]
  by_cases h2 : j = 2
  · simp [h2]
  by_cases h1 : j = 1
  · simp [h1]
  simp [h16, h8, h4, h2, h1]

/-- What the decoder extracts, element by element (40_codec.md R104). -/
theorem payloadBit_extractData (c : Codeword) (k : Nat) (hk : k < 24) :
    payloadBit (extractData c) k = codeBit c (dataPos.getD k 0) := by
  rw [payloadBit, extractData, pack_getMsbD 24 _ (by simp [dataPos])]
  interval_cases k <;> rfl

/-- A bit is flipped exactly for the syndromes 1..29 (40_codec.md R104). -/
theorem correctedFlag_iff (e : Nat) : correctedFlag e = true ↔ 1 ≤ e ∧ e ≤ 29 := by
  rw [correctedFlag, decide_eq_true_iff, codewordBits_eq]
  omega

end Encoder

end Sys2Proof.Machine
end

