-- ==== Sys2Proof/Laws/Encoding.lean ====
section
/-! SUPPORT. Command words as concatenations: the opcode byte and the must-be-zero field of an encoded operation, and when
a word selects a row of the opcode map. -/

namespace Sys2Proof

/-- The opcode byte of each operation (30_encoding.md R81). -/
def Instr.opcode : Instr → BitVec 8
  | .enc _ => 0x01#8
  | .dec _ => 0x02#8
  | .bin _ => 0x03#8
  | .maj3 _ => 0x04#8
  | .score _ => 0x05#8
  | .hex2pl _ _ => 0x06#8
  | .rxReset => 0x10#8
  | .rxSample _ => 0x11#8
  | .txReset => 0x20#8
  | .txSend _ _ _ => 0x21#8
  | .txTick _ => 0x22#8

/-- A field that lies wholly in the high part of a concatenation. -/
theorem field_high {v m : Nat} (hd : BitVec v) (x : BitVec m) (start len : Nat) (h : m ≤ start) :
    (hd ++ x).extractLsb' start len = hd.extractLsb' (start - m) len := BitVec.extractLsb'_append_eq_of_le h

/-- A field that lies wholly in the low part of a concatenation. -/
theorem field_low {v m : Nat} (hd : BitVec v) (x : BitVec m) (start len : Nat) (h : start + len ≤ m) :
    (hd ++ x).extractLsb' start len = x.extractLsb' start len := BitVec.extractLsb'_append_eq_of_add_le h

theorem opcodeOf_encode (i : Instr) : opcodeOf (encode i) = i.opcode := by
  cases i with
  | enc p => exact field_high (0x01#8 ++ 0#32) p 56 8 (by decide)
  | dec c => exact field_high (0x02#8 ++ 0#27) c 56 8 (by decide)
  | bin l => exact field_high (0x03#8 ++ 0#48) l 56 8 (by decide)
  | maj3 g => exact field_high (0x04#8 ++ 0#53) g 56 8 (by decide)
  | score w => exact field_high (0x05#8 ++ 0#32) w 56 8 (by decide)
  | hex2pl len ch =>
    refine (field_high (0x06#8 ++ 0#4 ++ len) ch 56 8 (by decide)).trans ?_
    exact field_high (0x06#8 ++ 0#4) len 8 8 (by decide)
  | rxReset => rfl
  | rxSample l => exact field_high (0x11#8 ++ 0#48) l 56 8 (by decide)
  | txReset => rfl
  | txSend p avail ok =>
    refine (field_high (0x21#8 ++ 0#30 ++ bitField ok ++ bitField avail) p 56 8 (by decide)).trans ?_
    cases ok <;> cases avail <;> rfl
  | txTick ok => cases ok <;> rfl

/-- Every row of the opcode map requires the whole opcode byte. -/
theorem rows_mask_opcode : ∀ r ∈ opcodeRows, r.mask.extractLsb' 56 8 = 0xFF#8 := by decide

/-- A word that selects a row has the row's opcode byte. -/
theorem selects_opcode (r : OpcodeRow) (w : Cmd) (hr : r ∈ opcodeRows) (h : r.selects w = true) :
    opcodeOf w = opcodeOf r.matchBits := by
  have hm := rows_mask_opcode r hr
  have hw : w &&& r.mask = r.matchBits := by simpa [OpcodeRow.selects] using h
  have : opcodeOf w &&& 0xFF#8 = opcodeOf r.matchBits := by rw [← hw, ← hm, opcodeOf, opcodeOf, BitVec.extractLsb'_and]
  rwa [show (0xFF#8 : BitVec 8) = BitVec.allOnes 8 from rfl, BitVec.and_allOnes] at this

/-- Masking a concatenation whose low part the mask clears: only the high part decides. -/
theorem and_mask_append {v m : Nat} (hd ma : BitVec v) (x : BitVec m) : (hd ++ x) &&& (ma ++ 0#m) = (hd &&& ma) ++ 0#m := by
  rw [BitVec.and_append, BitVec.and_zero]

end Sys2Proof
end

