-- ==== Sys2Proof/Laws/PerInstr.lean ====
section
/-! SUPPORT. Per-instruction statements. Family EncodeRow: the word an operation encodes to selects the row of the opcode
map that carries its own mnemonic (30_encoding.md R81). -/

namespace Sys2Proof.Laws.EncodeRow

/-- Some row of the map has the operation's mnemonic, and the encoded word selects it. -/
def Statement (i : Instr) : Prop :=
  ∃ r ∈ opcodeRows, r.mnemonic = i.mnemonic ∧ r.selects (encode i) = true

/-- The row at an index of the map, for an encoded word with the given high part. -/
theorem of_row (i : Instr) (k : Nat) (hk : k < opcodeRows.length) (hm : opcodeRows[k].mnemonic = i.mnemonic)
    (hs : encode i &&& opcodeRows[k].mask = opcodeRows[k].matchBits) : Statement i :=
  ⟨opcodeRows[k], List.getElem_mem hk, hm, by simpa [OpcodeRow.selects] using hs⟩

theorem enc (p : Payload) : Statement (.enc p) :=
  of_row _ 0 (by decide) rfl (and_mask_append (0x01#8 ++ 0#32) 0xFFFFFFFFFF#40 p)

theorem dec (c : Codeword) : Statement (.dec c) :=
  of_row _ 1 (by decide) rfl (and_mask_append (0x02#8 ++ 0#27) 0x7FFFFFFFF#35 c)

theorem bin (l : Lum) : Statement (.bin l) :=
  of_row _ 2 (by decide) rfl (and_mask_append (0x03#8 ++ 0#48) 0xFFFFFFFFFFFFFF#56 l)

theorem maj3 (g : Group) : Statement (.maj3 g) :=
  of_row _ 3 (by decide) rfl (and_mask_append (0x04#8 ++ 0#53) 0x1FFFFFFFFFFFFFFF#61 g)

theorem score (w : Window) : Statement (.score w) :=
  of_row _ 4 (by decide) rfl (and_mask_append (0x05#8 ++ 0#32) 0xFFFFFFFFFF#40 w)

theorem hex2pl (len : BitVec 4) (ch : HexChars) : Statement (.hex2pl len ch) := by
  refine of_row _ 5 (by decide) rfl ?_
  refine (and_mask_append (0x06#8 ++ 0#4 ++ len) (0xFFF#12 ++ 0#4) ch).trans ?_
  rw [and_mask_append (0x06#8 ++ 0#4) 0xFFF#12 len]
  rfl

theorem rxReset : Statement .rxReset := of_row _ 6 (by decide) rfl (by decide)

theorem rxSample (l : Lum) : Statement (.rxSample l) :=
  of_row _ 7 (by decide) rfl (and_mask_append (0x11#8 ++ 0#48) 0xFFFFFFFFFFFFFF#56 l)

theorem txReset : Statement .txReset := of_row _ 8 (by decide) rfl (by decide)

theorem txSend (p : Payload) (avail ok : Bool) : Statement (.txSend p avail ok) := by
  refine of_row _ 9 (by decide) rfl ?_
  refine (and_mask_append (0x21#8 ++ 0#30 ++ bitField ok ++ bitField avail) 0xFFFFFFFFFC#40 p).trans ?_
  cases ok <;> cases avail <;> rfl

theorem txTick (ok : Bool) : Statement (.txTick ok) :=
  of_row _ 10 (by decide) rfl (and_mask_append (0x22#8 ++ 0#55) 0x7FFFFFFFFFFFFFFF#63 (bitField ok))

end Sys2Proof.Laws.EncodeRow
end

