-- ==== Sys2Proof/Laws/Receiver.lean ====
section
/-! SUPPORT. The receive pipeline's shared operations: for each, one lemma that says everything it can do. -/

namespace Sys2Proof.Machine

/-- The history after the push: the old slots 1 and 2 move down (42_synchronizer.md R137). -/
theorem syncHist_eq (o : Bool) (r : RxState) :
    syncHist o r =
      { slot0 := r.hist.slot1, slot1 := r.hist.slot2,
        slot2 := if r.startBuf.length + 1 < 24 then 0 else scoreVal (syncBuffer r.startBuf o) } := by
  simp [syncHist, pushHist, syncScore]

/-- The start buffer after one observation: the last 24 of what has arrived (42_synchronizer.md R136). -/
theorem syncBuffer_eq (buf : List Bool) (o : Bool) : syncBuffer buf o = (buf ++ [o]).drop (buf.length + 1 - 24) := by
  rw [syncBuffer, truncate_eq_drop, append_length]; rfl

theorem syncBuffer_length (buf : List Bool) (o : Bool) : (syncBuffer buf o).length = min 24 (buf.length + 1) := by
  simp [syncBuffer, truncate_length]

/-- SYNC locks, on the oldest score alone, with the carried observations and everything else emptied; or it only slides
the buffer and the history (42_synchronizer.md R136 to R139). -/
theorem sync_cases (cfg : Config) (o : Bool) (r : RxState) :
    (0 < r.hist.slot1 ∧
      sync cfg o r =
        ({ r with obsBuf := lastN (syncBuffer r.startBuf o) (carryCount cfg (syncHist o r)), startBuf := [],
                  hist := Hist.zero }, true)) ∨
    (r.hist.slot1 = 0 ∧
      sync cfg o r = ({ r with startBuf := syncBuffer r.startBuf o, hist := syncHist o r }, false)) := by
  by_cases h : 0 < r.hist.slot1
  · left; simp [sync, syncHist_eq, h]
  · right
    have h0 : r.hist.slot1 = 0 := by omega
    simp [sync, syncHist_eq, h0]

/-- At most two observations are carried, whatever the parameters (93_implementation_defined.md U1). -/
theorem carryCount_le (cfg : Config) (h : Hist) : carryCount cfg h ≤ 2 := by unfold carryCount; omega

/-- The index chosen holds the highest score, whatever the tie-break (42_synchronizer.md R138). -/
theorem histSlot_maxIndex (tb : TieBreak) (h : Hist) : histSlot h (maxIndex tb h) = histMax h := by
  obtain ⟨a, b, c⟩ := h
  cases tb <;> unfold maxIndex <;> dsimp only
  · by_cases h0 : a = histMax ⟨a, b, c⟩
    · rw [if_pos h0]; exact h0
    by_cases h1 : b = histMax ⟨a, b, c⟩
    · rw [if_neg h0, if_pos h1]; exact h1
    · rw [if_neg h0, if_neg h1]; simp only [histMax, histSlot] at *; omega
  · by_cases h2 : c = histMax ⟨a, b, c⟩
    · rw [if_pos h2]; exact h2
    by_cases h1 : b = histMax ⟨a, b, c⟩
    · rw [if_neg h2, if_pos h1]; exact h1
    · rw [if_neg h2, if_neg h1]; simp only [histMax, histSlot] at *; omega

/-- A sample in INITIALIZING: counted and discarded, and the 30th ends the phase (43_demodulator.md R152). -/
theorem sampleInitializing_cases (r : RxState) :
    (r.initCount = 29 ∧
      sampleInitializing r = ({ r with rxState := .searching, initCount := 30 }, [.rxStatus 1#2])) ∨
    (r.initCount ≠ 29 ∧ sampleInitializing r = ({ r with initCount := r.initCount + 1 }, [])) := by
  by_cases h : r.initCount = 29
  · left; simp [sampleInitializing, h, enterPhase, statusCode]
  · right; simp [sampleInitializing, h]

/-- A sample in SEARCHING: lock and RECEIVING, or only the sliding buffer and history (43_demodulator.md R153). -/
theorem sampleSearching_cases (cfg : Config) (o : Bool) (r : RxState) :
    (0 < r.hist.slot1 ∧
      sampleSearching cfg o r =
        ({ r with rxState := .receiving, obsBuf := lastN (syncBuffer r.startBuf o) (carryCount cfg (syncHist o r)),
                  startBuf := [], hist := Hist.zero }, [.rxStatus 2#2])) ∨
    (r.hist.slot1 = 0 ∧
      sampleSearching cfg o r = ({ r with startBuf := syncBuffer r.startBuf o, hist := syncHist o r }, [])) := by
  rcases sync_cases cfg o r with ⟨h, e⟩ | ⟨h, e⟩
  · left; simp [sampleSearching, e, h, enterPhase, statusCode]
  · right; simp [sampleSearching, e, h]

/-- A sample in RECEIVING: overrun, an incomplete group, a data bit, or a frame (43_demodulator.md R154 to R156). -/
theorem sampleReceiving_cases (o : Bool) (r : RxState) :
    (3 ≤ r.obsBuf.length ∧
      sampleReceiving o r = ({ r with rxState := .searching, obsBuf := [], bitBuf := [] }, [.rxStatus 1#2])) ∨
    (r.obsBuf.length ≤ 1 ∧ sampleReceiving o r = ({ r with obsBuf := r.obsBuf ++ [o] }, [])) ∨
    (r.obsBuf.length = 2 ∧ r.bitBuf.length ≠ 28 ∧
      sampleReceiving o r =
        ({ r with obsBuf := [], bitBuf := r.bitBuf ++ [maj3Val (r.obsBuf ++ [o])] },
          [.rxProgress (BitVec.ofNat 5 (r.bitBuf.length + 1))])) ∨
    (r.obsBuf.length = 2 ∧ r.bitBuf.length = 28 ∧
      sampleReceiving o r =
        ({ r with rxState := .searching, obsBuf := [], bitBuf := [],
                  rxCorrected := (decVal (pack 29 (r.bitBuf ++ [maj3Val (r.obsBuf ++ [o])]))).2 },
          [.rxProgress 29#5,
           .rxPayload (decVal (pack 29 (r.bitBuf ++ [maj3Val (r.obsBuf ++ [o])]))).1
             (decVal (pack 29 (r.bitBuf ++ [maj3Val (r.obsBuf ++ [o])]))).2,
           .rxStatus 1#2])) := by
  by_cases h3 : 3 ≤ r.obsBuf.length
  · left; simp [sampleReceiving, h3, recover, enterPhase, statusCode]
  right
  by_cases h1 : r.obsBuf.length ≤ 1
  · left
    have : ¬ 3 < r.obsBuf.length + 1 := by omega
    have : r.obsBuf.length ≠ 2 := by omega
    simp [sampleReceiving, *, append]
  right
  have h2 : r.obsBuf.length = 2 := by omega
  by_cases hb : r.bitBuf.length = 28
  · right; simp [sampleReceiving, completeGroup, completeFrame, h2, hb, append, recover, enterPhase, statusCode]
  · left; simp [sampleReceiving, completeGroup, h2, hb, append]

/-- Exactly one of the three behaviours runs per sample (43_demodulator.md R151): the discarding one. -/
theorem rxSampleOp_initializing (cfg : Config) (l : cfg.Sample) (r : RxState) (h : r.rxState = .initializing) :
    rxSampleOp cfg l r = sampleInitializing r := by simp only [rxSampleOp, observeOp, h]

/-- The searching one. -/
theorem rxSampleOp_searching (cfg : Config) (l : cfg.Sample) (r : RxState) (h : r.rxState = .searching) :
    rxSampleOp cfg l r = sampleSearching cfg (binarize cfg l) r := by simp only [rxSampleOp, observeOp, h]

/-- The receiving one. -/
theorem rxSampleOp_receiving (cfg : Config) (l : cfg.Sample) (r : RxState) (h : r.rxState = .receiving) :
    rxSampleOp cfg l r = sampleReceiving (binarize cfg l) r := by simp only [rxSampleOp, observeOp, h]

/-- At eight bits only `THRESH_INT` decides (41_binarize_majority.md R120). -/
theorem binarize_eight (cfg : Config) (l : cfg.Sample) (h : cfg.lumW = 8) :
    binarize cfg l = decide (cfg.threshInt ≤ l.toNat) := if_pos h

/-- At another width the comparison of the real value decides (41_binarize_majority.md R121). -/
theorem binarize_other (cfg : Config) (l : cfg.Sample) (h : cfg.lumW ≠ 8) : binarize cfg l = realBright cfg l.toNat :=
  if_neg h

/-- Where the parameters fit together, every width binarizes by the comparison of the real value. -/
theorem binarize_of_coherent (cfg : Config) (l : cfg.Sample) (hc : Coherent cfg) :
    binarize cfg l = realBright cfg l.toNat := by
  by_cases h : cfg.lumW = 8
  · have hl : l.toNat < 256 := by simpa [h] using l.isLt
    rw [binarize_eight cfg l h, Bool.eq_iff_iff, decide_eq_true_iff]
    exact (hc h l.toNat hl).symm
  · exact binarize_other cfg l h

/-- At the block's parameters an observation is bright from 217 on (41_binarize_majority.md R120). -/
theorem binarize_blockConfig (l : Lum) : binarize blockConfig l = decide (217 ≤ l.toNat) := rfl

@[simp] theorem runSamples_nil (cfg : Config) (r : RxState) : runSamples cfg [] r = (r, []) := rfl

theorem runSamples_cons (cfg : Config) (l : cfg.Sample) (ls : List cfg.Sample) (r : RxState) :
    runSamples cfg (l :: ls) r =
      ((runSamples cfg ls (rxSampleOp cfg l r).1).1,
       (rxSampleOp cfg l r).2 ++ (runSamples cfg ls (rxSampleOp cfg l r).1).2) := rfl

end Sys2Proof.Machine
end

