-- ==== Sys2Proof/Laws/Step.lean ====
section
/-! SUPPORT. The outcomes of an operation and of a step: every operation answers a next state, and a step is one of
three cases. -/

namespace Sys2Proof.Machine

/-- What an operation does, as a function on states: `exec` answers it as the next state (60_exceptions.md R200). -/
def execState : Instr → State → State
  | .enc p => emit [.resCw (encVal p)]
  | .dec c => emit [.resPl (decVal c).1 (decVal c).2]
  | .bin l => emit [.resBit (binarize blockConfig l)]
  | .maj3 g => emit [.resBit (maj3Val (groupObs g))]
  | .score w => emit [.resScore (BitVec.ofNat 5 (scoreVal (windowObs w)))]
  | .hex2pl len ch => emit [hexResult len ch]
  | .rxReset => runRx rxResetOp
  | .rxSample l => runRx (rxSampleOp blockConfig l)
  | .txReset => runTx txResetOp
  | .txSend p avail ok => runTx (txSendOp blockConfig p avail ok)
  | .txTick ok => runTx (txTickOp blockConfig ok)

/-- Every operation answers exactly the state `execState` gives. -/
theorem exec_eq_next (i : Instr) (s : State) : exec i s = .next (execState i s) := by cases i <;> rfl

/-- Inversion: the next state of an operation is the state `execState` gives. -/
theorem exec_next_iff (i : Instr) (s t : State) : exec i s = .next t ↔ t = execState i s := by
  rw [exec_eq_next]
  constructor
  · intro h; injection h with h; exact h.symm
  · rintro rfl; rfl

/-- A step is idle, executes the decoded operation, or reports a reserved word (30_encoding.md R80, R88). -/
theorem step_cases (s t : State) (h : step s = .next t) :
    (s.input = [] ∧ t = s) ∨
    (∃ w rest i, s.input = w :: rest ∧ decode w = .ok i ∧ t = execState i { s with input := rest }) ∨
    (∃ w rest e, s.input = w :: rest ∧ decode w = .error e ∧ t = reservedWord { s with input := rest }) := by
  unfold step nextCommand at h
  cases hi : s.input with
  | nil => rw [hi] at h; left; injection h with h; exact ⟨rfl, h.symm⟩
  | cons w rest =>
    right
    rw [hi] at h
    cases hd : decode w with
    | ok i =>
      simp only [hd] at h
      exact .inl ⟨w, rest, i, rfl, hd, (exec_next_iff i _ t).1 h⟩
    | error e =>
      simp only [hd] at h
      injection h with h
      exact .inr ⟨w, rest, e, rfl, hd, h.symm⟩

end Sys2Proof.Machine
end

