-- ==== Sys2Proof/Laws/Transmitter.lean ====
section
/-! SUPPORT. The transmit pipeline's shared operations: for each, one lemma that says everything it can do. -/

namespace Sys2Proof.Machine

/-- The events of an actuator call (44_modulator.md R182). -/
theorem actuate_events (e : Event) (ok : Bool) (t : TxState) :
    (actuate e ok t).2 = e :: (if ok then [] else [.txActFail]) := by cases ok <;> rfl

/-- The frame on the wire, bit by bit: the preamble, then the Codeword (30_encoding.md R74). -/
theorem frameBit_buildFrame (p : Payload) (k : Nat) :
    frameBit (buildFrame p) k = (stabPattern ++ startPattern ++ unpack (encVal p)).getD k false := by
  rw [frameBit, buildFrame, pack_getMsbD 43 _ (by simp [stabPattern, startPattern])]

/-- The first frame bit is always 1 (30_encoding.md R74). -/
@[simp] theorem frameBit_buildFrame_zero (p : Payload) : frameBit (buildFrame p) 0 = true := by
  rw [frameBit_buildFrame]; rfl

/-- TICKWORK ends the frame, sends a bit equal to the last one without a call, or sends a bit that differs with one
call (44_modulator.md R178). -/
theorem tickWork_cases (cfg : Config) (ok : Bool) (t : TxState) :
    (43 ≤ t.txIndex ∧
      tickWork cfg ok t =
        ({ t with txRun := false, txIndex := 0, txPrev := false, txFail := t.txFail || !ok },
          .txActOff :: ((if ok then [] else [.txActFail]) ++ [.txDone]))) ∨
    (t.txIndex < 43 ∧ frameBit t.txFrame t.txIndex = t.txPrev ∧
      tickWork cfg ok t = ({ t with txIndex := t.txIndex + 1 }, [])) ∨
    (t.txIndex < 43 ∧ frameBit t.txFrame t.txIndex = !t.txPrev ∧
      tickWork cfg ok t =
        ({ t with txIndex := t.txIndex + 1, txPrev := !t.txPrev, txFail := t.txFail || !ok },
          levelCommand cfg (!t.txPrev) :: (if ok then [] else [.txActFail]))) := by
  by_cases h : 43 ≤ t.txIndex
  · left; cases ok <;> simp [tickWork, endFrame, h, actuate, failFlag]
  have h' : t.txIndex < 43 := by omega
  right
  by_cases hb : frameBit t.txFrame t.txIndex = t.txPrev
  · left; simp [tickWork, sendBit, h, h', hb]
  · right
    have hb' : frameBit t.txFrame t.txIndex = !t.txPrev := by
      cases hx : frameBit t.txFrame t.txIndex <;> cases hp : t.txPrev <;> simp_all
    have hne : ¬ ((!t.txPrev) = t.txPrev) := by cases t.txPrev <;> decide
    cases ok <;> simp [tickWork, sendBit, h, h', hb', actuate, failFlag]

/-- TX.SEND is refused as BUSY, refused as UNAVAILABLE, or accepted: then the first frame bit, a 1, is on the wire
(44_modulator.md R177). -/
theorem txSendOp_cases (cfg : Config) (p : Payload) (avail ok : Bool) (t : TxState) :
    (t.txRun = true ∧ txSendOp cfg p avail ok t = (t, [.txResult 2#2])) ∨
    (t.txRun = false ∧ avail = false ∧ txSendOp cfg p avail ok t = (t, [.txResult 1#2])) ∨
    (t.txRun = false ∧ avail = true ∧
      txSendOp cfg p avail ok t =
        ({ txRun := true, txFrame := buildFrame p, txIndex := 1, txPrev := true, txFail := !ok },
          .txResult 0#2 :: .txActOn cfg.txIntensity :: (if ok then [] else [.txActFail]))) := by
  by_cases hr : t.txRun = true
  · left; simp [txSendOp, hr, resultBusy]
  have hr' : t.txRun = false := by simpa using hr
  right
  cases avail
  · left; simp [txSendOp, hr', resultUnavailable]
  · right
    rcases tickWork_cases cfg ok (armFrame p t) with ⟨h, -⟩ | ⟨-, h, -⟩ | ⟨-, -, e⟩
    · simp at h
    · simp at h
    · rw [txSendOp, hr', e]
      simp [resultOk, levelCommand]

/-- TX.TICK does nothing while no timer is armed, else the tick's work (44_modulator.md R178, D26). -/
theorem txTickOp_cases (cfg : Config) (ok : Bool) (t : TxState) :
    (t.txRun = false ∧ txTickOp cfg ok t = (t, [])) ∨ (t.txRun = true ∧ txTickOp cfg ok t = tickWork cfg ok t) := by
  cases h : t.txRun <;> simp [txTickOp, h]

@[simp] theorem runTicks_nil (cfg : Config) (t : TxState) : runTicks cfg [] t = (t, []) := rfl

theorem runTicks_cons (cfg : Config) (ok : Bool) (oks : List Bool) (t : TxState) :
    runTicks cfg (ok :: oks) t =
      ((runTicks cfg oks (txTickOp cfg ok t).1).1,
       (txTickOp cfg ok t).2 ++ (runTicks cfg oks (txTickOp cfg ok t).1).2) := rfl

end Sys2Proof.Machine
end

