-- ==== Sys2Proof/Tests/Slice0.lean ====
section
/-! SUPPORT. The model's own tests. Expected results come from 30_encoding.md R95 and from the vectors V-… of
95_test_vectors.md, never from the model. The last part shows, for every obligation with hypotheses, concrete states and
operands that meet all of them together. -/

namespace Sys2Proof.Tests

open Sys2Proof.Machine

/-! ### Helpers -/

/-- The bits of a number, most significant of `n` first: short for writing bit strings. -/
def bits (n v : Nat) : List Bool := (List.range n).map (fun k => v.testBit (n - 1 - k))

/-- A state with a given receiver, the transmitter at reset and no events. -/
def rxIn (r : RxState) : State := { State.reset with rx := r, events := [] }

/-- A state with a given transmitter, the receiver at reset and no events. -/
def txIn (t : TxState) : State := { State.reset with tx := t, events := [] }

/-- A receiver in SEARCHING with a start buffer and history. -/
def searching (buf : List Bool) (h : Hist) : RxState :=
  { rxState := .searching, initCount := 30, startBuf := buf, hist := h, obsBuf := [], bitBuf := [], rxCorrected := false }

/-- A receiver in RECEIVING with data buffers. -/
def receiving (obs bs : List Bool) : RxState :=
  { rxState := .receiving, initCount := 30, startBuf := [], hist := Hist.zero, obsBuf := obs, bitBuf := bs,
    rxCorrected := false }

/-- A transmitter in the frame of 0xABCDEF (V-TX-2). -/
def sending (index : Nat) (prev fail : Bool) : TxState :=
  { txRun := true, txFrame := 0x79556978DEF#43, txIndex := index, txPrev := prev, txFail := fail }

/-- The state an outcome carries. -/
def nextOf (o : Host.Outcome State Fault Refusal) : Option State :=
  match o with
  | .next t => some t
  | .fault _ => none
  | .refused _ => none

/-- The events after an operation. -/
def eventsAfter (i : Instr) (s : State) : Option (List Event) := (nextOf (exec i s)).map State.events

/-- The receiver after an operation. -/
def rxAfter (i : Instr) (s : State) : Option RxState := (nextOf (exec i s)).map State.rx

/-- The transmitter after an operation. -/
def txAfter (i : Instr) (s : State) : Option TxState := (nextOf (exec i s)).map State.tx

/-- The decoded operation of a command word. -/
def decoded (w : Cmd) : Option Instr := (decode w).toOption

/-! ### Decoding and encoding: the words of 30_encoding.md R95 -/

theorem test_decode_enc : decode 0x0100000000ABCDEF = .ok (.enc 0xABCDEF) := by decide
theorem test_decode_dec : decode 0x0200000016978DEF = .ok (.dec 0x16978DEF) := by decide
theorem test_decode_bin : decode 0x03000000000000D9 = .ok (.bin 217) := by decide
theorem test_decode_maj3 : decode 0x0400000000000005 = .ok (.maj3 0b101) := by decide
theorem test_decode_score : decode 0x0500000000E38E38 = .ok (.score 0xE38E38) := by decide
theorem test_decode_hex2pl : decode 0x0606303030303041 = .ok (.hex2pl 6 0x303030303041) := by decide
theorem test_decode_rxReset : decode 0x1000000000000000 = .ok .rxReset := by decide
theorem test_decode_rxSample : decode 0x11000000000000FF = .ok (.rxSample 0xFF) := by decide
theorem test_decode_txReset : decode 0x2000000000000000 = .ok .txReset := by decide
theorem test_decode_txSend : decode 0x2100000003ABCDEF = .ok (.txSend 0xABCDEF true true) := by decide
theorem test_decode_txTick : decode 0x2200000000000001 = .ok (.txTick true) := by decide

/-- The bit 24 is `avail`, the bit 25 is `ok` (V-TX-1, V-TX-2). -/
theorem test_decode_txSend_flags :
    decode 0x2100000002ABCDEF = .ok (.txSend 0xABCDEF false true) ∧
    decode 0x2100000001ABCDEF = .ok (.txSend 0xABCDEF true false) := by decide

theorem test_encode_functions :
    encode (.enc 0xABCDEF) = 0x0100000000ABCDEF ∧ encode (.dec 0x16978DEF) = 0x0200000016978DEF ∧
    encode (.bin 217) = 0x03000000000000D9 ∧ encode (.maj3 0b101) = 0x0400000000000005 ∧
    encode (.score 0xE38E38) = 0x0500000000E38E38 ∧
    encode (.hex2pl 6 0x303030303041) = 0x0606303030303041 := by decide

theorem test_encode_pipelines :
    encode .rxReset = 0x1000000000000000 ∧ encode (.rxSample 0xFF) = 0x11000000000000FF ∧
    encode .txReset = 0x2000000000000000 ∧ encode (.txSend 0xABCDEF true true) = 0x2100000003ABCDEF ∧
    encode (.txTick true) = 0x2200000000000001 := by decide

/-- Smoke test of the first check of WellFormed: unlisted opcodes (V-RES-1). -/
theorem test_opcodeListed_refuses :
    opcodeListed 0x0000000000000000 = false ∧ opcodeListed 0xFF00000000000000 = false ∧
    opcodeListed 0x0700000000000000 = false ∧ opcodeListed 0x1200000000000000 = false ∧
    opcodeListed 0x2300000000000000 = false := by decide

/-- Smoke test of the second check: a must-be-zero bit is set (V-RES-1). -/
theorem test_reservedBitsZero_refuses :
    reservedBitsZero 0x0100000001000000 = false ∧ reservedBitsZero 0x0200000020000000 = false ∧
    reservedBitsZero 0x0300000000000100 = false ∧ reservedBitsZero 0x0400000000000008 = false ∧
    reservedBitsZero 0x0610000000000000 = false ∧ reservedBitsZero 0x1000000000000001 = false ∧
    reservedBitsZero 0x2100000004ABCDEF = false ∧ reservedBitsZero 0x2200000000000002 = false := by decide

/-- The decoder rejects the same words, by name (V-RES-1). -/
theorem test_decode_rejects :
    decode 0x0000000000000000 = .error .unlistedOpcode ∧ decode 0x2300000000000000 = .error .unlistedOpcode ∧
    decode 0x0610000000000000 = .error .mustBeZeroBitSet ∧ decode 0x2200000000000002 = .error .mustBeZeroBitSet := by
  decide

/-- The host's entry: a table word is the command word itself. -/
theorem test_decodeTableWord :
    decodeTableWord 64 0x2100000003ABCDEF = some (.txSend 0xABCDEF true true) ∧
    decodeTableWord 64 0x2300000000000000 = none := by decide

/-- The very next step after `withFetchWord` runs that operation. -/
theorem test_withFetchWord :
    step (State.reset.withFetchWord 64 0x2100000003ABCDEF) = exec (.txSend 0xABCDEF true true) State.reset := rfl

/-- A reserved word is a step that emits RES.ILLEGAL (V-RES-1). -/
theorem test_step_reserved :
    step (State.reset.withFetchWord 64 0x2300000000000000) =
      .next { State.reset with events := State.reset.events ++ [.resIllegal] } := rfl

/-! ### The codec, binarization, majority, score, hexadecimal -/

/-- V-ENC-1 and V-ENC-5. -/
theorem test_enc :
    eventsAfter (.enc 0xABCDEF) (rxIn .atReset) = some [.resCw 0x16978DEF] ∧
    eventsAfter (.enc 0x000001) (rxIn .atReset) = some [.resCw 0x12202001] := by decide +kernel

/-- V-DEC-2 row 7 and V-DEC-3 (14, 16): a correction, and syndrome 30 with no flip. -/
theorem test_dec :
    eventsAfter (.dec 0x16D78DEF) (rxIn .atReset) = some [.resPl 0xABCDEF true] ∧
    eventsAfter (.dec 0x16972DEF) (rxIn .atReset) = some [.resPl 0xAB8DEF false] := by decide

/-- V-DEC-4: syndrome 29 and syndrome 31. -/
theorem test_dec_far :
    eventsAfter (.dec 0x00000001) (rxIn .atReset) = some [.resPl 0x000000 true] ∧
    eventsAfter (.dec 0x15555555) (rxIn .atReset) = some [.resPl 0xDAB555 false] := by decide

/-- V-BIN-1: both sides of the threshold. -/
theorem test_bin :
    eventsAfter (.bin 216) (rxIn .atReset) = some [.resBit false] ∧
    eventsAfter (.bin 217) (rxIn .atReset) = some [.resBit true] := by decide

/-- V-MAJ-1: `101` and `100`. -/
theorem test_maj3 :
    eventsAfter (.maj3 0b101) (rxIn .atReset) = some [.resBit true] ∧
    eventsAfter (.maj3 0b100) (rxIn .atReset) = some [.resBit false] := by decide

/-- V-SCORE-4 and V-SCORE-8. -/
theorem test_score :
    eventsAfter (.score 0x71C71C) (rxIn .atReset) = some [.resScore 16] ∧
    eventsAfter (.score 0xE38E3B) (rxIn .atReset) = some [.resScore 0] := by decide

/-- V-HEX-6: mixed case. -/
theorem test_hex2pl : eventsAfter (.hex2pl 6 0x416243644566) (rxIn .atReset) = some [.resHex true 0xABCDEF] := by decide

/-- V-HEX-2 and V-HEX-11: no digit, and length 7. -/
theorem test_hex2pl_invalid :
    eventsAfter (.hex2pl 6 0x474730303030) (rxIn .atReset) = some [.resHex false 0] ∧
    eventsAfter (.hex2pl 7 0x303030303030) (rxIn .atReset) = some [.resHex false 0] := by decide

/-! ### The receiver -/

/-- V-RX-1. -/
theorem test_rxReset : rxAfter .rxReset (rxIn (receiving [true] [true, false])) = some .atReset ∧
    eventsAfter .rxReset (rxIn (receiving [true] [true, false])) = some [.rxStatus 0] := by decide

/-- V-RX-2: the 30th sample. -/
theorem test_rxSample_settled :
    eventsAfter (.rxSample 0xFF) (rxIn { RxState.atReset with initCount := 29 }) = some [.rxStatus 1] ∧
    rxAfter (.rxSample 0xFF) (rxIn { RxState.atReset with initCount := 29 }) = some (searching [] ⟨0, 0, 0⟩) := by
  decide

/-- V-SYNC-7, step 26: a tie locks with the lowest index. -/
theorem test_rxSample_lock :
    rxAfter (.rxSample 0xFF) (rxIn (searching (bits 24 0b111001111001111001111001) ⟨0, 20, 20⟩)) =
      some (receiving [true, true] []) := by decide

/-- V-SYNC-3, step 42: the last observation of the start segment scores 24. -/
theorem test_rxSample_search :
    rxAfter (.rxSample 0x00) (rxIn (searching (bits 24 0b011100011100011100011100) ⟨0, 0, 16⟩)) =
      some (searching (bits 24 0b111000111000111000111000) ⟨0, 16, 24⟩) := by decide

/-- V-RX-4. -/
theorem test_rxSample_frame :
    eventsAfter (.rxSample 0xFF) (rxIn (receiving [true, true] (bits 28 0b1011011010111100011011110111))) =
      some [.rxProgress 29, .rxPayload 0xABCDEF true, .rxStatus 1] := by decide +kernel

/-- V-RX-5: overrun on a state loaded from outside. -/
theorem test_rxSample_overrun :
    rxAfter (.rxSample 0xFF) (rxIn (receiving [true, false, true] [true, false, true, true])) =
      some (searching [] ⟨0, 0, 0⟩) := by decide

/-! ### The transmitter -/

/-- V-TX-2: accepted, and the first call fails. -/
theorem test_txSend :
    txAfter (.txSend 0xABCDEF true false) (txIn .atReset) = some (sending 1 true true) ∧
    eventsAfter (.txSend 0xABCDEF true false) (txIn .atReset) = some [.txResult 0, .txActOn 255, .txActFail] := by decide +kernel

/-- V-TX-1 and V-TX-3: BUSY wins over UNAVAILABLE. -/
theorem test_txSend_refused :
    eventsAfter (.txSend 0xABCDEF false true) (txIn .atReset) = some [.txResult 1] ∧
    eventsAfter (.txSend 0x123456 false true) (txIn (sending 1 true true)) = some [.txResult 2] := by decide

/-- V-TX-4, fourth tick. -/
theorem test_txTick :
    txAfter (.txTick false) (txIn (sending 4 true true)) = some (sending 5 false true) ∧
    eventsAfter (.txTick false) (txIn (sending 4 true true)) = some [.txActOff, .txActFail] := by decide

/-- V-TX-7, tick 43 with a failed call. -/
theorem test_txTick_final :
    eventsAfter (.txTick false) (txIn (sending 43 true false)) = some [.txActOff, .txActFail, .txDone] := by decide

/-- V-TX-5. -/
theorem test_txReset :
    eventsAfter .txReset (txIn (sending 5 false true)) = some [.txActOff] ∧
    txAfter .txReset (txIn (sending 5 false true)) =
      some { txRun := false, txFrame := 0x79556978DEF, txIndex := 0, txPrev := false, txFail := false } := by decide

/-! ### Witnesses: the hypotheses of the obligations, met together -/

theorem witness_DecodeCorrectsEverySingleError :
    ((1 ≤ 1 ∧ 1 ≤ 29) ∧ decVal (encVal 0xABCDEF ^^^ (1#29 <<< (29 - 1))) = (0xABCDEF, true)) ∧
    ((1 ≤ 29 ∧ 29 ≤ 29) ∧ decVal (encVal 0xABCDEF ^^^ (1#29 <<< (29 - 29))) = (0xABCDEF, true)) := by decide +kernel

/-- The pairs (1, 2) and (15, 16) of V-DEC-3. -/
theorem witness_TwoErrorsNeverDecodeToTheSentPayload :
    ((1 ≤ 1 ∧ 1 < 2 ∧ 2 ≤ 29) ∧
      decVal (encVal 0xABCDEF ^^^ (1#29 <<< (29 - 1)) ^^^ (1#29 <<< (29 - 2))) = (0x2BCDEF, true)) ∧
    ((1 ≤ 15 ∧ 15 < 16 ∧ 16 ≤ 29) ∧
      decVal (encVal 0xABCDEF ^^^ (1#29 <<< (29 - 15)) ^^^ (1#29 <<< (29 - 16))) = (0xABEDEF, false)) := by decide +kernel

/-- Each clause at the ends of its range: syndromes 0, 1, 29, 30, 31 (V-DEC-4). -/
theorem witness_DecodeResultFollowsTheSyndrome :
    syndromeSum 0x00000000 = 0 ∧ syndromeSum 0x10000000 = 1 ∧ syndromeSum 0x00000001 = 29 ∧
    syndromeSum 0x0AAAAAAA = 30 ∧ syndromeSum 0x15555555 = 31 := by decide

/-- The block's parameters with another width and comparison of the samples. -/
def withSamples (width : Nat) (strict : Bool) : Config := { blockConfig with lumW := width, threshStrict := strict }

/-- The block's own parameters are coherent, and so they are with the non-strict comparison. -/
theorem coherent_blockConfig (strict : Bool) : Coherent (withSamples 8 strict) := by
  intro _ s _
  cases strict
  · show decide (17 * (2 ^ 8 - 1) ≤ 20 * s) = true ↔ 217 ≤ s
    rw [decide_eq_true_iff]
    omega
  · show decide (17 * (2 ^ 8 - 1) < 20 * s) = true ↔ 217 ≤ s
    rw [decide_eq_true_iff]
    omega

/-- Both comparisons. -/
theorem witness_StrictnessIsUnobservableAtEightBits :
    ((withSamples 8 true).lumW = 8 ∧ Coherent (withSamples 8 true)) ∧
    ((withSamples 8 false).lumW = 8 ∧ Coherent (withSamples 8 false)) :=
  ⟨⟨rfl, coherent_blockConfig true⟩, rfl, coherent_blockConfig false⟩

/-- Eight bits with both comparisons, and a port of another width. -/
theorem witness_BinarizationComparesTheRealValue :
    (∀ strict, 0 < (withSamples 8 strict).lumW ∧ Coherent (withSamples 8 strict)) ∧
    (∀ strict, 0 < (withSamples 10 strict).lumW ∧ Coherent (withSamples 10 strict)) :=
  ⟨fun strict => ⟨Nat.succ_pos 7, coherent_blockConfig strict⟩,
   fun _ => ⟨Nat.succ_pos 9, fun h => absurd h (by decide : (10 : Nat) ≠ 8)⟩⟩

theorem witness_StrictnessIsUnobservableAtEveryWidth : 0 < blockConfig.lumW ∧ 0 < (withSamples 1 false).lumW := by decide

/-- Samples of 10 bits, `L = s/1023`: 870/1023 is above 17/20 and 869/1023 is not. Of 12 bits, `L = s/4095`: 17/20 is
at 3480.75. Of 4 bits, `L = s/15`: 17/20 is at 12.75 (41_binarize_majority.md R121). -/
theorem test_binarize_widths :
    binarize (withSamples 10 true) (870#10) = true ∧ binarize (withSamples 10 true) (869#10) = false ∧
    binarize (withSamples 12 true) (3480#12) = false ∧ binarize (withSamples 12 true) (3481#12) = true ∧
    binarize (withSamples 4 true) (12#4) = false ∧ binarize (withSamples 4 true) (13#4) = true := by decide

/-- V-SCORE-1 and V-SCORE-8: a window with all groups matching, and one without. -/
theorem witness_ScoreCountsMismatchesOfMatchingGroups :
    AllGroupsMatch 0xE38E38 ∧ ¬ AllGroupsMatch 0xE38E3B := by unfold AllGroupsMatch; decide

/-- A valid string and two invalid ones (V-HEX-1, V-HEX-2, V-HEX-3). -/
theorem witness_HexStringGivesItsSixDigits :
    (∀ k, k < 6 → ∃ g ∈ hexTable, g.1 = ((0x303030303041#48).extractLsb' (40 - 8 * k) 8).toNat) ∧
    (¬ ∃ g ∈ hexTable, g.1 = ((0x474730303030#48).extractLsb' 40 8).toNat) ∧ (3#4).toNat ≠ 6 := by decide

theorem witness_SampleWhileInitializingIsDiscarded :
    State.reset.rx.rxState = .initializing ∧ State.reset.rx.initCount + 1 ≠ 30 ∧
    (rxIn { RxState.atReset with initCount := 29 }).rx.rxState = .initializing ∧
    (rxIn { RxState.atReset with initCount := 29 }).rx.initCount + 1 = 30 := by decide

/-- A buffer that stays short, one that fills, one that slides. -/
theorem witness_SampleWithoutLockSlidesTheWindow :
    ∀ buf ∈ [[], bits 23 0b11100011100011100011100, bits 24 0b011100011100011100011100],
      ∃ (buf' : List Bool) (a : Nat),
        (rxIn (searching buf ⟨0, 0, 16⟩)).rx.rxState = .searching ∧
        (rxIn (searching buf ⟨0, 0, 16⟩)).rx.hist.slot1 = 0 ∧
        buf' = (buf ++ [decide (217 ≤ (0#8).toNat)]).drop (buf.length + 1 - 24) ∧
        a = (if buf.length + 1 < 24 then 0 else scoreVal buf') := by
  intro buf _; exact ⟨_, _, rfl, rfl, rfl, rfl⟩

/-- The three indexes: the tie of V-SYNC-7 (0), the noise-free lock of V-SYNC-3 (1), a history that ends highest (2). -/
theorem witness_LockCarriesByTheFirstHighestScore :
    ∀ x ∈ [(([20, 20, 0] : List Nat), 0), ([16, 24, 17], 1), ([16, 0, 24], 2)],
      (∀ i, i < x.2 → x.1.getD i 0 < x.1.getD x.2 0) ∧ (∀ i, i ≤ 2 → x.1.getD i 0 ≤ x.1.getD x.2 0) ∧
      0 < x.1.getD 0 0 ∧ x.2 ≤ 2 := by decide

/-- All hypotheses of a lock together: the state before step 26 of V-SYNC-7. -/
theorem witness_LockCarriesByTheFirstHighestScore_state :
    ∃ (s : State) (buf : List Bool) (a j : Nat),
      s.rx.rxState = .searching ∧ 0 < s.rx.hist.slot1 ∧
      buf = (s.rx.startBuf ++ [decide (217 ≤ (0xFF#8).toNat)]).drop (s.rx.startBuf.length + 1 - 24) ∧
      a = (if s.rx.startBuf.length + 1 < 24 then 0 else scoreVal buf) ∧ j ≤ 2 ∧
      (∀ i, i < j → [s.rx.hist.slot1, s.rx.hist.slot2, a].getD i 0 < [s.rx.hist.slot1, s.rx.hist.slot2, a].getD j 0) ∧
      (∀ i, i ≤ 2 → [s.rx.hist.slot1, s.rx.hist.slot2, a].getD i 0 ≤
        [s.rx.hist.slot1, s.rx.hist.slot2, a].getD j 0) :=
  ⟨rxIn (searching (bits 24 0b111001111001111001111001) ⟨0, 20, 20⟩), bits 24 0b110011110011110011110011, 0, 0,
    by decide⟩

theorem witness_LockComesTwoSamplesAfterTheFirstScore :
    (searching (bits 24 0b111000111000111000111000) ⟨0, 0, 24⟩).rxState = .searching ∧
    (searching (bits 24 0b111000111000111000111000) ⟨0, 0, 24⟩).hist = ⟨0, 0, 24⟩ ∧ 0 < 24 := by decide

/-- Steps 26 to 28 of V-SYNC-6. -/
theorem witness_IsolatedScoringWindowStillLocks :
    ∃ (r : RxState) (l₁ l₂ : Lum), r.rxState = .searching ∧ r.startBuf.length = 24 ∧ r.hist = ⟨0, 0, 22⟩ ∧ 0 < 22 ∧
      scoreVal (r.startBuf.drop 1 ++ [decide (217 ≤ l₁.toNat)]) = 0 ∧
      scoreVal (r.startBuf.drop 2 ++ [decide (217 ≤ l₁.toNat), decide (217 ≤ l₂.toNat)]) = 0 :=
  ⟨searching (bits 24 0b110000011000111000111000) ⟨0, 0, 22⟩, 0xFF, 0x00, by decide⟩

/-- One dark sample that fills a dark buffer (V-SYNC-5). -/
theorem witness_SearchNeverEndsWithoutAScore :
    ∃ (r : RxState) (ls : List Lum), ls = [0] ∧ r.rxState = .searching ∧ r.hist = ⟨0, 0, 0⟩ ∧ r.startBuf.length = 23 ∧
      ∀ n, 1 ≤ n → n ≤ ls.length → ∀ q, q = r.startBuf ++ (ls.take n).map (binarize blockConfig) → 24 ≤ q.length →
        scoreVal (q.drop (q.length - 24)) = 0 := by
  refine ⟨searching (bits 23 0) ⟨0, 0, 0⟩, [0], rfl, rfl, rfl, rfl, ?_⟩
  intro n h1 h2 q hq _
  obtain rfl : n = 1 := by simp at h2; omega
  subst hq
  decide

theorem witness_SampleOfAnIncompleteGroupIsAppended :
    (rxIn (receiving [] [])).rx.rxState = .receiving ∧ (rxIn (receiving [] [])).rx.obsBuf.length ≤ 1 ∧
    (rxIn (receiving [true] [])).rx.rxState = .receiving ∧ (rxIn (receiving [true] [])).rx.obsBuf.length ≤ 1 := by
  decide

/-- V-RX-3, and the last group that does not end the frame. -/
theorem witness_SampleCompletingAGroupCollectsItsMajority :
    (rxIn (receiving [true, false] [true])).rx.rxState = .receiving ∧
    (rxIn (receiving [true, false] [true])).rx.obsBuf = [true, false] ∧
    (rxIn (receiving [true, false] [true])).rx.bitBuf.length < 28 ∧
    (rxIn (receiving [true, false] (bits 27 5))).rx.bitBuf.length < 28 := by decide

/-- V-RX-4. -/
theorem witness_SampleCompletingAFrameReportsItsPayload :
    ∃ (s : State) (c : Codeword), s.rx.rxState = .receiving ∧ s.rx.obsBuf = [true, true] ∧ s.rx.bitBuf.length = 28 ∧
      ∀ i, i ≤ 29 → 1 ≤ i → codeBit c i = (s.rx.bitBuf ++ [true]).getD (i - 1) false :=
  ⟨rxIn (receiving [true, true] (bits 28 0b1011011010111100011011110111)), 0x16D78DEF, by decide⟩

/-- V-RX-5, with three and with four observations. -/
theorem witness_OverrunDiscardsTheFrame :
    (rxIn (receiving [true, false, true] [])).rx.rxState = .receiving ∧
    3 ≤ (rxIn (receiving [true, false, true] [])).rx.obsBuf.length ∧
    3 ≤ (rxIn (receiving [true, false, true, true] [])).rx.obsBuf.length := by decide

/-- An operation answers a next state: the hypothesis `exec i s = .next t` of the statements about every operation. -/
theorem witness_exec_next (i : Instr) (s : State) : ∃ t, exec i s = .next t := ⟨_, exec_eq_next i s⟩

/-- The clauses of the transition table: each phase before a sample, and an operation of another agent. -/
theorem witness_ReceiverPhasesFollowTheTransitionTable :
    (∃ t, exec (.rxSample 0) State.reset = .next t ∧ State.reset.rx.rxState = .initializing) ∧
    (∃ t, exec (.rxSample 0) (rxIn (searching [] ⟨0, 16, 0⟩)) = .next t ∧ (searching [] ⟨0, 16, 0⟩).rxState = .searching) ∧
    (∃ t, exec (.rxSample 0) (rxIn (receiving [] [])) = .next t ∧ (receiving [] []).rxState = .receiving) ∧
    (∃ t, exec .txReset State.reset = .next t ∧ instrAgent .txReset ≠ .rx) :=
  ⟨⟨_, rfl, rfl⟩, ⟨_, rfl, rfl⟩, ⟨_, rfl, rfl⟩, ⟨_, rfl, by decide⟩⟩

/-- A change of phase, a reset in the same phase, and a sample that changes nothing of the phase. -/
theorem witness_EveryPhaseChangeIsReportedOnce :
    (∃ t, exec (.rxSample 0) (rxIn { RxState.atReset with initCount := 29 }) = .next t ∧ t.rx.rxState ≠ .initializing) ∧
    (∃ t, exec .rxReset State.reset = .next t ∧ t.rx.rxState = State.reset.rx.rxState) ∧
    (∃ t, exec (.rxSample 0) State.reset = .next t ∧ t.rx.rxState = State.reset.rx.rxState) :=
  ⟨⟨_, rfl, by decide⟩, ⟨_, rfl, rfl⟩, ⟨_, rfl, rfl⟩⟩

/-- A frame begun with one carried observation, and one with a single bit missing. -/
theorem witness_FrameEndsAfterExactlyItsSamples :
    ((receiving [true] []).rxState = .receiving ∧ (receiving [true] []).obsBuf.length ≤ 2 ∧
      (receiving [true] []).bitBuf.length ≤ 28 ∧
      (List.replicate 85 (0#8)).length + 3 * (receiving [true] []).bitBuf.length + (receiving [true] []).obsBuf.length < 87) ∧
    ((receiving [true, true] (bits 28 5)).rxState = .receiving ∧ (receiving [true, true] (bits 28 5)).obsBuf.length ≤ 2 ∧
      (receiving [true, true] (bits 28 5)).bitBuf.length ≤ 28 ∧
      [0xFF#8].length + 3 * (receiving [true, true] (bits 28 5)).bitBuf.length +
        (receiving [true, true] (bits 28 5)).obsBuf.length = 87) := by decide

theorem witness_SendIsRefusedWhileSending : (txIn (sending 1 true true)).tx.txRun = true := rfl

theorem witness_SendIsRefusedWhenUnavailable : (txIn .atReset).tx.txRun = false := rfl

theorem witness_AcceptedSendStartsTheFrame : State.reset.tx.txRun = false := rfl

theorem witness_TickWhileIdleDoesNothing : State.reset.tx.txRun = false := rfl

/-- A bit equal to the one before (index 42 of the frame of 0xABCDEF), and a transition (index 4). -/
theorem witness_TickSendsTheNextFrameBit :
    ((sending 42 true false).txRun = true ∧ (sending 42 true false).txIndex < 43 ∧
      true = (sending 42 true false).txFrame.getMsbD (sending 42 true false).txIndex ∧
      true = (sending 42 true false).txPrev) ∧
    ((sending 4 true false).txIndex < 43 ∧
      false = (sending 4 true false).txFrame.getMsbD (sending 4 true false).txIndex) := by decide

theorem witness_FinalTickForcesTheActuatorOff :
    (txIn (sending 43 true false)).tx.txRun = true ∧ 43 ≤ (txIn (sending 43 true false)).tx.txIndex := by decide

/-- A tick with a call (index 4), one without (index 42), and an accepted send. -/
theorem witness_FailedCallChangesOnlyTheFlag :
    (∃ t₁ t₀, exec (.txTick true) (txIn (sending 4 true false)) = .next t₁ ∧
      exec (.txTick false) (txIn (sending 4 true false)) = .next t₀) ∧
    (∃ t₁ t₀, exec (.txTick true) (txIn (sending 42 true false)) = .next t₁ ∧
      exec (.txTick false) (txIn (sending 42 true false)) = .next t₀) ∧
    (∃ t₁ t₀, exec (.txSend 0xABCDEF true true) State.reset = .next t₁ ∧
      exec (.txSend 0xABCDEF true false) State.reset = .next t₀) :=
  ⟨⟨_, _, rfl, rfl⟩, ⟨_, _, rfl, rfl⟩, ⟨_, _, rfl, rfl⟩⟩

theorem witness_TransmissionTakesExactlyFortyThreeTicks :
    ∃ t t₀ : TxState, t.txRun = false ∧ t₀ = (txSendOp blockConfig 0xABCDEF true true t).1 ∧
      (List.replicate 42 false).length ≤ 42 ∧ (List.replicate 43 true).length = 43 :=
  ⟨.atReset, _, rfl, rfl, by decide, by decide⟩

theorem witness_ActuatorCallsAreTheBitTransitions :
    TxState.atReset.txRun = false ∧ (List.replicate 42 false).length ≤ 42 ∧ ([] : List Bool).length ≤ 42 := by decide

/-- A busy transmitter under a send, and an idle one. -/
theorem witness_OnlyAnAcceptedSendWritesTheFrame :
    (∃ t, exec (.txSend 0x123456 true true) (txIn (sending 1 true true)) = .next t ∧ (sending 1 true true).txRun = true) ∧
    (∃ t, exec (.txSend 0x123456 true true) State.reset = .next t ∧ State.reset.tx.txRun = false) :=
  ⟨⟨_, rfl, rfl⟩, ⟨_, rfl, rfl⟩⟩

theorem witness_StepExecutesTheDecodedOperation :
    ∃ s : State, s.input = 0x11000000000000FF :: [] ∧ decode 0x11000000000000FF = .ok (.rxSample 0xFF) ∧
      State.reset.input = [] := ⟨present 0x11000000000000FF State.reset, rfl, by decide, rfl⟩

theorem witness_ReservedWordOnlyReportsIllegal :
    ∃ s : State, s.input = 0x2300000000000000 :: [] ∧ wellFormedWord 0x2300000000000000 = false :=
  ⟨present 0x2300000000000000 State.reset, rfl, by decide⟩

theorem witness_OperationsTouchOnlyTheirOwnRecord :
    ∃ t, exec (.rxSample 0xFF) (txIn (sending 5 false true)) = .next t ∧ instrAgent (.rxSample 0xFF) ≠ .tx :=
  ⟨_, rfl, by decide⟩

/-- Two states with the same receiver and different transmitters. -/
theorem witness_OperationsReadOnlyTheirOwnRecord :
    ∃ t t', (instrAgent (.rxSample 0) = .rx → (txIn .atReset).rx = (txIn (sending 5 false true)).rx) ∧
      (instrAgent (.rxSample 0) = .tx → (txIn .atReset).tx = (txIn (sending 5 false true)).tx) ∧
      exec (.rxSample 0) (txIn .atReset) = .next t ∧ exec (.rxSample 0) (txIn (sending 5 false true)) = .next t' :=
  ⟨_, _, fun _ => rfl, fun h => absurd h (by decide), rfl, rfl⟩

theorem witness_OperationsOfDifferentAgentsCommute :
    ∃ a ab b ba, instrAgent (.rxSample 0xFF) ≠ instrAgent (.txTick true) ∧
      exec (.rxSample 0xFF) (txIn (sending 4 true false)) = .next a ∧ exec (.txTick true) a = .next ab ∧
      exec (.txTick true) (txIn (sending 4 true false)) = .next b ∧ exec (.rxSample 0xFF) b = .next ba :=
  ⟨_, _, _, _, by decide, rfl, rfl, rfl, rfl⟩

/-- A state in the middle of a frame and of a search, with a command waiting. -/
theorem witness_EveryStepKeepsTheInvariants :
    ∃ s t : State, s.Inv ∧ s.input ≠ [] ∧ step s = .next t :=
  ⟨present 0x2200000000000001
      { rx := searching (bits 24 0b111000111000111000111000) ⟨0, 16, 24⟩, tx := sending 4 true true, events := [],
        input := [] }, _, by decide, by decide, rfl⟩

theorem witness_SamplesKeepTheReceiverInvariantsForEveryConfig :
    (searching (bits 24 0b111000111000111000111000) ⟨0, 16, 24⟩).Inv ∧ (receiving [true, true] (bits 28 5)).Inv ∧
    RxState.atReset.Inv := ⟨by decide, by decide, by decide⟩

theorem witness_EveryStepKeepsTheOffGuarantee :
    ∃ s t : State, s.tx.Inv ∧ s.ActuatorTracksPrev ∧ s.tx.txRun = true ∧ step s = .next t :=
  ⟨present 0x2200000000000001 { txIn (sending 43 true false) with events := [.txActOn 255] }, _, by decide, by decide,
    rfl, rfl⟩

theorem witness_EncodeOfDecodeIsTheWord : decode 0x0606303030303041 = .ok (.hex2pl 6 0x303030303041) := by decide

/-- A decoded word and a word of each kind of error. -/
theorem witness_DecoderAgreesWithTheOpcodeMap :
    decode 0x2200000000000001 = .ok (.txTick true) ∧ decode 0x2200000000000002 = .error .mustBeZeroBitSet ∧
    decode 0x2300000000000000 = .error .unlistedOpcode := by decide

end Sys2Proof.Tests
end

section
/-! The codec (40_codec.md): every check group of an encoded Payload has even parity, one wrong position is what the
syndrome names, and undoing it gives the Payload back. -/

namespace Sys2Proof.Machine

theorem parityPos_range : ∀ q ∈ parityPos, 1 ≤ q ∧ q ≤ 29 := by decide

/-- No parity position lies in the check group of another one (30_encoding.md R72), so a parity bit written later leaves
the groups written before it. -/
theorem parityPos_not_mem_checkGroup : ∀ q ∈ parityPos, ∀ r ∈ parityPos, q ≠ r → r ∉ checkGroup q := by decide

theorem dataPos_range : ∀ k < 24, 1 ≤ dataPos.getD k 0 ∧ dataPos.getD k 0 ≤ 29 := by decide

theorem dataPos_not_mem_parityPos : ∀ k < 24, dataPos.getD k 0 ∉ parityPos := by decide

/-! ### The encoder's check groups -/

/-- A write keeps the word or flips the position. -/
theorem setCodeBit_eq_ite (c : Codeword) (i : Nat) (b : Bool) (hi : 1 ≤ i) (hi' : i ≤ 29) :
    setCodeBit c i b = if codeBit c i = b then c else flipCodeBit c i := by
  split
  next h =>
    apply codeBit_ext
    intro j hj hj'
    rw [codeBit_setCodeBit c i j b hi hi' hj hj']
    split
    next hji => rw [hji, h]
    next => rfl
  next h => rw [flipCodeBit, Bool.eq_not_of_ne (Ne.symm h)]

/-- Once the parity bit of a group is written, the group's parity is what the parity bit was before. -/
theorem groupParity_placeParity_same (c : Codeword) (q : Nat) (hq : q ∈ parityPos) :
    groupParity (placeParity c q) q = codeBit c q := by
  obtain ⟨h1, h29⟩ := parityPos_range q hq
  rw [placeParity, setCodeBit_eq_ite c q _ h1 h29]
  split
  next h => exact h.symm
  next h =>
    have hpos : q &&& q ≠ 0 := by rw [Nat.and_self]; omega
    rw [flipCodeBit_eq_xor c q h1 h29, groupParity_xor, groupParity_posMask q q h1 h29 hq, decide_eq_true hpos,
      Bool.xor_true, Bool.eq_not_of_ne h]

/-- Writing the parity bit of one group leaves the parity of the others. -/
theorem groupParity_placeParity_of_ne (c : Codeword) (q r : Nat) (hq : q ∈ parityPos) (hr : r ∈ parityPos)
    (h : q ≠ r) : groupParity (placeParity c r) q = groupParity c q :=
  groupParity_set_of_not_mem c r q _ (parityPos_range r hr).1 (parityPos_range r hr).2
    (parityPos_not_mem_checkGroup q hq r hr h)

theorem codeBit_placeParity_of_ne (c : Codeword) (q r : Nat) (hq : q ∈ parityPos) (hr : r ∈ parityPos) (h : q ≠ r) :
    codeBit (placeParity c r) q = codeBit c q := by
  obtain ⟨hq1, hq29⟩ := parityPos_range q hq
  obtain ⟨hr1, hr29⟩ := parityPos_range r hr
  rw [placeParity, codeBit_setCodeBit c r q _ hr1 hr29 hq1 hq29, if_neg h]

/-- A run of parity writes makes the parity of every group it visits what the group's parity bit was before, and leaves
the other groups. -/
theorem groupParity_foldl_placeParity (l : List Nat) (c : Codeword) (q : Nat) (hl : ∀ r ∈ l, r ∈ parityPos)
    (hnd : l.Nodup) (hq : q ∈ parityPos) :
    groupParity (l.foldl placeParity c) q = if q ∈ l then codeBit c q else groupParity c q := by
  induction l generalizing c with
  | nil => simp
  | cons r l ih =>
    obtain ⟨hr, hl⟩ := List.forall_mem_cons.1 hl
    obtain ⟨hrl, hnd⟩ := List.nodup_cons.1 hnd
    rw [List.foldl_cons, ih _ hl hnd]
    by_cases h : q = r
    · subst h
      rw [if_neg hrl, if_pos List.mem_cons_self, groupParity_placeParity_same c q hq]
    · rw [codeBit_placeParity_of_ne c q r hq hr h, groupParity_placeParity_of_ne c q r hq hr h]
      simp [h]

/-- Every check group of an encoded Payload has even parity (40_codec.md R103). -/
theorem groupParity_encVal (p : Payload) (q : Nat) (hq : q ∈ parityPos) : groupParity (encVal p) q = false := by
  rw [encVal, groupParity_foldl_placeParity parityPos _ q (fun _ hr => hr) (by decide) hq, if_pos hq,
    codeBit_placeData_parity p q hq]

/-- A valid Codeword, in the machine's own check groups (30_encoding.md R72). -/
theorem validCodeword_iff (c : Codeword) : ValidCodeword c ↔ ∀ q ∈ parityPos, groupParity c q = false := by
  simp [ValidCodeword, checkGroup_eq_table, groupParity_eq_xorAt]

/-- The Payload stands unchanged at the data positions (40_codec.md R101). -/
theorem codeBit_encVal_data (p : Payload) (k : Nat) (hk : k < 24) :
    codeBit (encVal p) (dataPos.getD k 0) = payloadBit p k := by
  obtain ⟨h1, h29⟩ := dataPos_range k hk
  rw [codeBit_encVal p _ h1 h29, if_neg (dataPos_not_mem_parityPos k hk), codeBit_placeData_data p k hk]

/-- Settles O2: the codeword is the encoder's own, with the data positions and the check groups said above. -/
theorem encodeEmitsTheEvenParityCodeword : Obligations.EncodeEmitsTheEvenParityCodeword := fun p s =>
  ⟨encVal p, exec_eq_next (.enc p) s, codeBit_encVal_data p, (validCodeword_iff _).2 (groupParity_encVal p)⟩

/-! ### The decoder's correction -/

/-- A number below 32 is the XOR of its bits (40_codec.md R105). -/
theorem foldl_xor_parityPos :
    ∀ k < 32, parityPos.foldl (fun e q => if decide (k &&& q ≠ 0) then e ^^^ q else e) 0 = k := by decide

/-- If the odd groups are exactly those of the bits of `k`, the syndrome is `k` (40_codec.md R105). -/
theorem errorPosition_eq_of_groupParity (c : Codeword) (k : Nat) (hk : k < 32)
    (h : ∀ q ∈ parityPos, groupParity c q = decide (k &&& q ≠ 0)) : errorPosition c = k :=
  (List.foldl_ext _ _ 0 fun e q hq => by rw [h q hq]).trans (foldl_xor_parityPos k hk)

theorem errorPosition_encVal (p : Payload) : errorPosition (encVal p) = 0 :=
  errorPosition_eq_of_groupParity _ 0 (by decide) fun q hq => by simp [groupParity_encVal p q hq]

/-- The syndrome of a single error is its position. -/
theorem errorPosition_encVal_xor_posMask (p : Payload) (k : Nat) (hk : 1 ≤ k) (hk' : k ≤ 29) :
    errorPosition (encVal p ^^^ posMask k) = k :=
  errorPosition_eq_of_groupParity _ k (by omega) fun q hq => by
    rw [groupParity_xor, groupParity_encVal p q hq, groupParity_posMask k q hk hk' hq, Bool.false_xor]

/-- What the decoder extracts from an encoded Payload is the Payload. -/
theorem extractData_encVal (p : Payload) : extractData (encVal p) = p := by
  apply BitVec.eq_of_getMsbD_eq
  intro k hk
  exact (payloadBit_extractData _ k hk).trans (codeBit_encVal_data p k hk)

/-- Without a syndrome in 1..29 the decoder takes the word as received (40_codec.md R104). -/
theorem decVal_of_not_corrected (c : Codeword) (h : correctedFlag (errorPosition c) = false) :
    decVal c = (extractData c, false) := by
  simp [decVal, correctBits, h]

/-- With a syndrome in 1..29 the decoder flips the position it names (40_codec.md R104). -/
theorem decVal_of_corrected (c : Codeword) (h : 1 ≤ errorPosition c) (h' : errorPosition c ≤ 29) :
    decVal c = (extractData (c ^^^ posMask (errorPosition c)), true) := by
  have hflag := (correctedFlag_iff _).2 ⟨h, h'⟩
  simp [decVal, correctBits, hflag, flipCodeBit_eq_xor c _ h h']

theorem decVal_encVal (p : Payload) : decVal (encVal p) = (p, false) := by
  rw [decVal_of_not_corrected _ (by rw [errorPosition_encVal]; rfl), extractData_encVal]

theorem decVal_encVal_xor_posMask (p : Payload) (k : Nat) (hk : 1 ≤ k) (hk' : k ≤ 29) :
    decVal (encVal p ^^^ posMask k) = (p, true) := by
  have he := errorPosition_encVal_xor_posMask p k hk hk'
  rw [decVal_of_corrected _ (by rw [he]; exact hk) (by rw [he]; exact hk'), he, BitVec.xor_assoc, BitVec.xor_self,
    BitVec.xor_zero, extractData_encVal]

/-- DEC, by the result of the decoder (40_codec.md R104). -/
theorem exec_dec_of_decVal (c : Codeword) (p : Payload) (corrected : Bool) (s : State)
    (h : decVal c = (p, corrected)) :
    exec (.dec c) s = .next { s with events := s.events ++ [.resPl p corrected] } := by
  rw [exec_eq_next, execState, h]
  rfl

/-- Settles O6: an encoded Payload has syndrome 0. -/
theorem decodeOfEncodeReturnsThePayload : Obligations.DecodeOfEncodeReturnsThePayload := fun p s =>
  exec_dec_of_decVal _ p false s (decVal_encVal p)

/-- Settles O7: the syndrome of a single error is its position, so the decoder flips it back. -/
theorem decodeCorrectsEverySingleError : Obligations.DecodeCorrectsEverySingleError := fun p k s hk hk' =>
  exec_dec_of_decVal _ p true s (decVal_encVal_xor_posMask p k hk hk')

end Sys2Proof.Machine
end

section
/-! Majority vote (41_binarize_majority.md): the vote over three observations is the disjunction of their pairs. -/

namespace Sys2Proof.Machine

/-- The observations of a group, first received first (30_encoding.md R85). -/
theorem groupObs_eq (g : Group) : groupObs g = [g.getLsbD 2, g.getLsbD 1, g.getLsbD 0] := by
  simp [groupObs, unpack, List.range_succ, BitVec.getMsbD]

/-- The vote over three observations: some two of them are bright (41_binarize_majority.md R122). -/
theorem maj3Val_three (x y z : Bool) : maj3Val [x, y, z] = ((x && y) || (x && z) || (y && z)) := by
  revert x y z
  decide

/-- Settles O12: the vote counts the bright observations of the group, and two of three are bright exactly when some
pair is. -/
theorem maj3IsTwoOfThree : Obligations.Maj3IsTwoOfThree := by
  intro g s
  rw [← maj3Val_three, ← groupObs_eq]
  exact exec_eq_next (.maj3 g) s

end Sys2Proof.Machine
end

section
/-! SCORE (42_synchronizer.md R133): the loop over the groups of three, against the group counts of the window. -/

namespace Sys2Proof.Machine

/-- Group `g` of a window: the three observations from `3 * g` on (42_synchronizer.md R131). It is what the loop of
SCOREVAL cuts off (`take_drop_windowObs`) and what `groupCount` counts in (`groupCount_eq_count`). -/
def windowGroup (w : Window) (g : Nat) : List Bool :=
  [w.getMsbD (3 * g), w.getMsbD (3 * g + 1), w.getMsbD (3 * g + 2)]

/-- What the loop cuts off at its turn `g` is group `g` of the window. -/
theorem take_drop_windowObs (w : Window) (g : Nat) (hg : g < 8) :
    ((windowObs w).drop (3 * g)).take 3 = windowGroup w g := by
  have hidx : ∀ g < 8, ((List.range 24).drop (3 * g)).take 3 = [3 * g, 3 * g + 1, 3 * g + 2] := by decide
  rw [windowObs, unpack, ← List.map_drop, ← List.map_take, hidx g hg]
  rfl

theorem groupCount_eq_count (w : Window) (g : Nat) (b : Bool) : groupCount w g b = (windowGroup w g).count b := by
  simp only [groupCount, windowGroup, List.count_cons, List.count_nil, beq_iff_eq]
  omega

theorem groupCount_le (w : Window) (g : Nat) (b : Bool) : groupCount w g b ≤ 3 :=
  (groupCount_eq_count w g b).trans_le List.count_le_length

theorem windowMismatches_le (w : Window) : windowMismatches w ≤ 24 := by
  have h := List.sum_le_card_nsmul ((List.range 8).map fun g => groupCount w g (!expectedBit g)) 3
    (by simp [groupCount_le])
  simpa [windowMismatches] using h

/-- The vote over three observations is `b` exactly when at least two of them are (41_binarize_majority.md R122). -/
theorem maj3Val_three_eq_iff (x y z b : Bool) : maj3Val [x, y, z] = b ↔ 2 ≤ [x, y, z].count b := by
  revert x y z b
  decide

/-- A group passes the loop's test exactly when two of its observations are the expected bit. -/
theorem maj3Val_windowGroup_eq_iff (w : Window) (g : Nat) (b : Bool) :
    maj3Val (windowGroup w g) = b ↔ 2 ≤ groupCount w g b := by
  rw [groupCount_eq_count]
  exact maj3Val_three_eq_iff _ _ _ b

/-- One turn of the loop, at group `g`: abort, or go on with the group's mismatches added (42_synchronizer.md R133). -/
theorem scoreLoop_group (w : Window) (g m : Nat) (e : Bool) (es : List Bool) (hg : g < 8) :
    scoreLoop (e :: es) ((windowObs w).drop (3 * g)) m =
      if 2 ≤ groupCount w g e then
        scoreLoop es ((windowObs w).drop (3 * (g + 1))) (m + groupCount w g (!e))
      else 0 := by
  simp only [scoreLoop, framesPerBit_eq, take_drop_windowObs w g hg, maj3Val_windowGroup_eq_iff, groupMismatches,
    ← groupCount_eq_count, List.drop_drop, Nat.mul_succ]

/-- The loop over the `k` groups from group `g` on. -/
theorem scoreLoop_eq (w : Window) (k g m : Nat) (hk : g + k ≤ 8) :
    scoreLoop ((List.range' g k).map expectedBit) ((windowObs w).drop (3 * g)) m =
      if ∀ i ∈ List.range' g k, 2 ≤ groupCount w i (expectedBit i) then
        24 - (m + ((List.range' g k).map fun i => groupCount w i (!expectedBit i)).sum)
      else 0 := by
  induction k generalizing g m with
  | zero => simp [scoreLoop]
  | succ k ih =>
    rw [List.range'_succ, List.map_cons, scoreLoop_group w g m _ _ (by omega), ih (g + 1) _ (by omega)]
    simp only [List.forall_mem_cons, List.map_cons, List.sum_cons, ite_and, Nat.add_assoc]

theorem allGroupsMatch_iff (w : Window) :
    AllGroupsMatch w ↔ ∀ i ∈ List.range 8, 2 ≤ groupCount w i (expectedBit i) := by
  simp [AllGroupsMatch]

/-- SCOREVAL of a window, by its groups (42_synchronizer.md R133). -/
theorem scoreVal_windowObs (w : Window) :
    scoreVal (windowObs w) =
      if ∀ i ∈ List.range 8, 2 ≤ groupCount w i (expectedBit i) then 24 - windowMismatches w else 0 := by
  have h := scoreLoop_eq w 8 0 0 (by decide)
  rw [Nat.zero_add, ← List.range_eq_range'] at h
  exact h

theorem scoreVal_of_allGroupsMatch (w : Window) (h : AllGroupsMatch w) :
    scoreVal (windowObs w) = 24 - windowMismatches w := by
  rw [scoreVal_windowObs, if_pos ((allGroupsMatch_iff w).1 h)]

theorem scoreVal_of_not_allGroupsMatch (w : Window) (h : ¬ AllGroupsMatch w) : scoreVal (windowObs w) = 0 := by
  rw [scoreVal_windowObs, if_neg (mt (allGroupsMatch_iff w).2 h)]

theorem scoreVal_windowObs_le (w : Window) : scoreVal (windowObs w) ≤ 24 := by
  by_cases h : AllGroupsMatch w
  · rw [scoreVal_of_allGroupsMatch w h]; exact Nat.sub_le _ _
  · rw [scoreVal_of_not_allGroupsMatch w h]; exact Nat.zero_le _

/-- Settles O14: the loop adds up the mismatches while the groups match, and 24 observations hold at most 24 of them. -/
theorem scoreCountsMismatchesOfMatchingGroups : Obligations.ScoreCountsMismatchesOfMatchingGroups := by
  intro w s
  refine ⟨scoreVal (windowObs w), (scoreVal_windowObs_le w).trans_lt (by decide), exec_eq_next (.score w) s, ?_,
    scoreVal_of_not_allGroupsMatch w⟩
  intro h
  rw [scoreVal_of_allGroupsMatch w h]
  exact Nat.sub_add_cancel (windowMismatches_le w)

end Sys2Proof.Machine
end

section
/-! The search without a score (42_synchronizer.md R143): the start buffer is the last 24 observations, and nothing else
moves. -/

namespace Sys2Proof.Machine

/-- Dropping old elements before others arrive does not change which are the last `n`. -/
theorem lastN_lastN_append (q t : List Bool) (n : Nat) : lastN (lastN q n ++ t) n = lastN (q ++ t) n := by
  have h : lastN q n ++ t = (q ++ t).drop (q.length - n) :=
    (List.drop_append_of_le_length (Nat.sub_le _ _)).symm
  rw [h, lastN, lastN, List.drop_drop, List.length_drop, List.length_append]
  congr 1
  omega

/-- The start buffer after a run of observations holds the last 24 of what has arrived (42_synchronizer.md R136). -/
theorem foldl_syncBuffer (buf obs : List Bool) (h : buf.length ≤ 24) :
    obs.foldl syncBuffer buf = lastN (buf ++ obs) 24 := by
  induction obs generalizing buf with
  | nil => simp [lastN, h]
  | cons o obs ih =>
    have hlast : syncBuffer buf o = lastN (buf ++ [o]) 24 := truncate_eq_drop _ _
    have hlen : (syncBuffer buf o).length ≤ 24 := by rw [syncBuffer_length]; exact Nat.min_le_left _ _
    rw [List.foldl_cons, ih _ hlen, hlast, lastN_lastN_append, List.append_assoc, List.singleton_append]

/-- Pushing the score of a window that does not score leaves the empty history empty (42_synchronizer.md R137). -/
theorem syncHist_of_no_score (o : Bool) (r : RxState) (hh : r.hist = Hist.zero)
    (hs : 24 ≤ (syncBuffer r.startBuf o).length → scoreVal (syncBuffer r.startBuf o) = 0) :
    syncHist o r = Hist.zero := by
  rw [syncHist_eq, hh]
  split
  next => rfl
  next hlen => rw [hs (by rw [syncBuffer_length]; omega)]; rfl

/-- With the history empty, a sample in SEARCHING whose window does not score only slides the start buffer. -/
theorem rxSampleOp_of_no_score (cfg : Config) (l : cfg.Sample) (r : RxState) (hr : r.rxState = .searching)
    (hh : r.hist = Hist.zero)
    (hs : 24 ≤ (syncBuffer r.startBuf (binarize cfg l)).length →
      scoreVal (syncBuffer r.startBuf (binarize cfg l)) = 0) :
    rxSampleOp cfg l r = ({ r with startBuf := syncBuffer r.startBuf (binarize cfg l) }, []) := by
  rw [rxSampleOp_searching cfg l r hr]
  rcases sampleSearching_cases cfg (binarize cfg l) r with ⟨hlock, -⟩ | ⟨-, e⟩
  · rw [hh] at hlock
    exact absurd hlock (Nat.lt_irrefl 0)
  · rw [e, syncHist_of_no_score _ r hh hs, ← hh]

/-- A run of samples in SEARCHING, none of whose windows scores, only slides the start buffer (42_synchronizer.md
R143). -/
theorem runSamples_of_no_score (cfg : Config) (ls : List cfg.Sample) (r : RxState) (hr : r.rxState = .searching)
    (hh : r.hist = Hist.zero)
    (hs : ∀ n < ls.length, ∀ buf, buf = ((ls.take (n + 1)).map (binarize cfg)).foldl syncBuffer r.startBuf →
      24 ≤ buf.length → scoreVal buf = 0) :
    runSamples cfg ls r = ({ r with startBuf := (ls.map (binarize cfg)).foldl syncBuffer r.startBuf }, []) := by
  induction ls generalizing r with
  | nil => rfl
  | cons l ls ih =>
    have hstep := rxSampleOp_of_no_score cfg l r hr hh (hs 0 (Nat.succ_pos _) _ rfl)
    rw [runSamples_cons, hstep, ih { r with startBuf := syncBuffer r.startBuf (binarize cfg l) } hr hh
      fun n hn => hs (n + 1) (Nat.succ_lt_succ hn)]
    rfl

/-- Settles O23: no sample locks, since the history stays empty, and the buffer is the last 24 observations. -/
theorem searchNeverEndsWithoutAScore : Obligations.SearchNeverEndsWithoutAScore := by
  intro cfg ls r hr hh hbuf hs
  rw [runSamples_of_no_score cfg ls r hr hh]
  · rw [foldl_syncBuffer _ _ hbuf, lastN, List.length_append, List.length_map]
  · intro n hn buf hq hlen
    rw [foldl_syncBuffer _ _ hbuf] at hq
    rw [hq, lastN_length] at hlen
    rw [hq]
    exact hs (n + 1) (Nat.succ_pos n) hn _ rfl (hlen.trans (Nat.min_le_right _ _))

end Sys2Proof.Machine
end

section
/-! The receiver's transition table (43_demodulator.md R149): the phase after a sample in each of the three phases, and
the operations that leave the receiver alone. -/

namespace Sys2Proof.Machine

/-- The 30th sample ends INITIALIZING (43_demodulator.md R152). -/
theorem sampleInitializing_rxState (r : RxState) (hr : r.rxState = .initializing) :
    (sampleInitializing r).1.rxState = if r.initCount = 29 then .searching else .initializing := by
  rcases sampleInitializing_cases r with ⟨h, e⟩ | ⟨h, e⟩
  · rw [e, if_pos h]
  · rw [e, if_neg h]
    exact hr

/-- SEARCHING ends with the score about to leave slot 1 (43_demodulator.md R153, 42_synchronizer.md R137). -/
theorem sampleSearching_rxState (cfg : Config) (o : Bool) (r : RxState) (hr : r.rxState = .searching) :
    (sampleSearching cfg o r).1.rxState = if 0 < r.hist.slot1 then .receiving else .searching := by
  rcases sampleSearching_cases cfg o r with ⟨h, e⟩ | ⟨h, e⟩
  · rw [e, if_pos h]
  · rw [e, if_neg h.not_gt]
    exact hr

/-- RECEIVING ends with the group that completes a frame, and with an overrun (43_demodulator.md R155, R156). -/
theorem sampleReceiving_rxState (o : Bool) (r : RxState) (hr : r.rxState = .receiving) :
    (sampleReceiving o r).1.rxState =
      if (r.obsBuf.length = 2 ∧ r.bitBuf.length = 28) ∨ 3 ≤ r.obsBuf.length then .searching else .receiving := by
  rcases sampleReceiving_cases o r with ⟨hover, e⟩ | ⟨hshort, e⟩ | ⟨hgroup, hbits, e⟩ | ⟨hgroup, hbits, e⟩
  · rw [e, if_pos (.inr hover)]
  · rw [e, if_neg (by omega)]
    exact hr
  · rw [e, if_neg (by omega)]
    exact hr
  · rw [e, if_pos (.inl ⟨hgroup, hbits⟩)]

/-- Only the receiver's own operations touch its record (10_state.md R20). -/
theorem execState_rx_of_agent_ne (i : Instr) (s : State) (hi : instrAgent i ≠ .rx) : (execState i s).rx = s.rx := by
  cases i with
  | rxReset | rxSample => exact absurd rfl hi
  | enc | dec | bin | maj3 | score | hex2pl => exact emit_rx _ s
  | txReset | txSend | txTick => exact runTx_rx _ s

theorem execState_rxSample_rx (l : Lum) (s : State) :
    (execState (.rxSample l) s).rx = (rxSampleOp blockConfig l s.rx).1 := runRx_rx _ s

/-- Settles O28: RX.RESET enters INITIALIZING, a sample moves the phase as the one behaviour it selects does, and no
other operation touches the receiver. -/
theorem receiverPhasesFollowTheTransitionTable : Obligations.ReceiverPhasesFollowTheTransitionTable := by
  intro i s t ht
  obtain rfl := (exec_next_iff i s t).1 ht
  refine ⟨?reset, ?sample, fun hi => by rw [execState_rx_of_agent_ne i s hi]⟩
  case reset =>
    rintro rfl
    exact enterPhase_rxState _ _
  case sample =>
    rintro l rfl
    rw [execState_rxSample_rx]
    refine ⟨fun hr => ?_, fun hr => ?_, fun hr => ?_⟩
    · rw [rxSampleOp_initializing _ _ _ hr, sampleInitializing_rxState _ hr]
    · rw [rxSampleOp_searching _ _ _ hr, sampleSearching_rxState _ _ _ hr]
    · rw [rxSampleOp_receiving _ _ _ hr, sampleReceiving_rxState _ _ hr]

end Sys2Proof.Machine
end

section
/-! A failed actuator call (44_modulator.md R182). Every transmit operation makes at most one actuator call, and its
answer reaches only `txFail` and the TX.ACT_FAIL directly after the command. -/

namespace Sys2Proof.Machine

/-- The result of an operation that makes one actuator call answered `ok`: the command `cmd`, with TX.ACT_FAIL directly
after it when the call failed, between the other events. A tick with a call has this shape (`tickWork_eq`). -/
def withCall (t : TxState) (pre : List Event) (cmd : Event) (post : List Event) (ok : Bool) : TxState × List Event :=
  ({ t with txFail := t.txFail || !ok }, pre ++ cmd :: ((if ok then [] else [.txActFail]) ++ post))

@[simp] theorem withCall_true_events (t : TxState) (pre : List Event) (cmd : Event) (post : List Event) :
    (withCall t pre cmd post true).2 = pre ++ cmd :: post := rfl

@[simp] theorem withCall_false_events (t : TxState) (pre : List Event) (cmd : Event) (post : List Event) :
    (withCall t pre cmd post false).2 = pre ++ cmd :: .txActFail :: post := rfl

/-- An operation, as a function of the actuator's answer, that makes no call and ignores the answer, or makes one
call. -/
inductive OneCallAtMost : (Bool → TxState × List Event) → Prop where
  | noCall (t : TxState) (es : List Event) (hcmd : es.filterMap commandLevel = []) (hfail : .txActFail ∉ es) :
      OneCallAtMost fun _ => (t, es)
  | call (t : TxState) (pre : List Event) (cmd : Event) (post : List Event) (hcmd : commandLevel cmd ≠ none)
      (hpre : .txActFail ∉ pre) (hpost : .txActFail ∉ post) : OneCallAtMost (withCall t pre cmd post)

/-- What R182 says of the results `q₁` with the call answered 1 and `q₀` with it answered 0. -/
structure DiffersOnlyByFailedCall (q₁ q₀ : TxState × List Event) : Prop where
  state : q₀.1 = { q₁.1 with txFail := q₀.1.txFail }
  events : q₀.2.filter (fun e => decide (e ≠ .txActFail)) = q₁.2
  of_no_call : q₁.2.filterMap commandLevel = [] → q₀ = q₁
  of_call : q₁.2.filterMap commandLevel ≠ [] → q₀.1.txFail = true ∧ q₀.2.count .txActFail = 1

theorem filter_ne_txActFail (es : List Event) (h : .txActFail ∉ es) :
    es.filter (fun e => decide (e ≠ .txActFail)) = es :=
  List.filter_eq_self.2 fun _ he => decide_eq_true (ne_of_mem_of_not_mem he h)

/-- The answer to an operation's one call changes only what R182 says. -/
theorem OneCallAtMost.differsOnlyByFailedCall {op : Bool → TxState × List Event} (h : OneCallAtMost op) :
    DiffersOnlyByFailedCall (op true) (op false) := by
  cases h with
  | noCall t es hcmd hfail =>
    exact ⟨rfl, filter_ne_txActFail es hfail, fun _ => rfl, fun h => absurd hcmd h⟩
  | call t pre cmd post hcmd hpre hpost =>
    have hne : cmd ≠ .txActFail := by rintro rfl; exact hcmd rfl
    refine ⟨rfl, ?events, ?of_no_call, fun _ => ⟨Bool.or_true _, ?count⟩⟩
    case events =>
      rw [withCall_false_events, withCall_true_events, List.filter_append,
        List.filter_cons_of_pos (by exact decide_eq_true hne), List.filter_cons_of_neg (by decide),
        filter_ne_txActFail pre hpre, filter_ne_txActFail post hpost]
    case of_no_call =>
      obtain ⟨b, hb⟩ := Option.ne_none_iff_exists'.1 hcmd
      intro h
      simp [hb] at h
    case count =>
      simp [hne, List.count_eq_zero_of_not_mem hpre, List.count_eq_zero_of_not_mem hpost]

/-! ### The operations make at most one call -/

/-- An event that is no part of a call may stand before an operation's events. -/
theorem OneCallAtMost.cons {op : Bool → TxState × List Event} (h : OneCallAtMost op) (e : Event)
    (hcmd : commandLevel e = none) (hfail : .txActFail ≠ e) :
    OneCallAtMost fun ok => ((op ok).1, e :: (op ok).2) := by
  cases h with
  | noCall t es hes hnot =>
    exact .noCall t (e :: es) (by rw [List.filterMap_cons_none hcmd, hes])
      (List.not_mem_cons_of_ne_of_not_mem hfail hnot)
  | call t pre cmd post hc hpre hpost =>
    exact .call t (e :: pre) cmd post hc (List.not_mem_cons_of_ne_of_not_mem hfail hpre) hpost

/-- TICKWORK makes its call when the frame is exhausted or the bit differs from the last one (44_modulator.md R178). -/
theorem tickWork_eq (cfg : Config) (ok : Bool) (t : TxState) :
    tickWork cfg ok t =
      if 43 ≤ t.txIndex then
        withCall { t with txRun := false, txIndex := 0, txPrev := false } [] .txActOff [.txDone] ok
      else if frameBit t.txFrame t.txIndex = t.txPrev then ({ t with txIndex := t.txIndex + 1 }, [])
      else
        withCall { t with txIndex := t.txIndex + 1, txPrev := !t.txPrev } [] (levelCommand cfg (!t.txPrev)) [] ok := by
  rcases tickWork_cases cfg ok t with ⟨h, e⟩ | ⟨h, hb, e⟩ | ⟨h, hb, e⟩
  · rw [e, if_pos h]; rfl
  · rw [e, if_neg h.not_ge, if_pos hb]
  · rw [e, if_neg h.not_ge, if_neg (hb.trans_ne (Bool.not_ne_self _)), withCall, List.append_nil, List.nil_append]

@[simp] theorem commandLevel_levelCommand (cfg : Config) (b : Bool) : commandLevel (levelCommand cfg b) = some b := by
  cases b <;> rfl

theorem oneCallAtMost_tickWork (cfg : Config) (t : TxState) : OneCallAtMost fun ok => tickWork cfg ok t := by
  simp only [tickWork_eq]
  split
  · exact .call _ [] .txActOff [.txDone] (by decide) (by decide) (by decide)
  · split
    · exact .noCall _ [] rfl (by decide)
    · exact .call _ [] _ [] (by simp) (by decide) (by decide)

theorem oneCallAtMost_txTickOp (cfg : Config) (t : TxState) : OneCallAtMost fun ok => txTickOp cfg ok t := by
  unfold txTickOp
  split
  · exact oneCallAtMost_tickWork cfg t
  · exact .noCall t [] rfl (by decide)

/-- An accepted send calls the actuator for the first frame bit, a refused one does not (44_modulator.md R177). -/
theorem oneCallAtMost_txSendOp (cfg : Config) (p : Payload) (avail : Bool) (t : TxState) :
    OneCallAtMost fun ok => txSendOp cfg p avail ok t := by
  unfold txSendOp
  split
  · exact .noCall t [.txResult resultBusy] rfl (by decide)
  · split
    · exact (oneCallAtMost_tickWork cfg (armFrame p t)).cons (.txResult resultOk) rfl (by decide)
    · exact .noCall t [.txResult resultUnavailable] rfl (by decide)

/-! ### The next tick -/

/-- No tick reads `txFail` to decide on a call (44_modulator.md R182). -/
theorem txTickOp_events_ignore_txFail (cfg : Config) (ok f : Bool) (t : TxState) :
    (txTickOp cfg ok { t with txFail := f }).2 = (txTickOp cfg ok t).2 := by
  simp only [txTickOp, tickWork_eq]
  split_ifs <;> rfl

/-- Settles O38: a send or a tick makes at most one actuator call, whose answer reaches only the flag and TX.ACT_FAIL,
and the next tick does not read the flag. -/
theorem failedCallChangesOnlyTheFlag : Obligations.FailedCallChangesOnlyTheFlag := by
  intro i s t₁ t₀ hi h₁ h₀
  obtain ⟨op, hexec, hop⟩ : ∃ op : Bool → TxState → TxState × List Event,
      (∀ ok, execState (i ok) s = runTx (op ok) s) ∧ OneCallAtMost fun ok => op ok s.tx := by
    rcases hi with ⟨p, avail, rfl⟩ | rfl
    · exact ⟨txSendOp blockConfig p avail, fun _ => rfl, oneCallAtMost_txSendOp _ p avail _⟩
    · exact ⟨txTickOp blockConfig, fun _ => rfl, oneCallAtMost_txTickOp _ _⟩
  rw [exec_next_iff, hexec] at h₁ h₀
  subst h₁ h₀
  obtain ⟨hstate, hevents, hnone, hcall⟩ := hop.differsOnlyByFailedCall
  refine ⟨(op true s.tx).2, (op false s.tx).2, rfl, rfl, ?state, hevents, ?no_call, hcall, ?next⟩
  case state => exact congrArg (fun t => { s with tx := t, events := (runTx (op false) s).events }) hstate
  case no_call => exact fun h => by rw [runTx, runTx, hnone h]
  case next =>
    intro ok u₁ u₀ hu₁ hu₀
    obtain rfl := (exec_next_iff _ _ _).1 hu₁
    obtain rfl := (exec_next_iff _ _ _).1 hu₀
    refine ⟨(txTickOp blockConfig ok (op true s.tx).1).2, rfl, ?_⟩
    rw [← txTickOp_events_ignore_txFail blockConfig ok (op false s.tx).1.txFail, ← hstate]
    rfl

end Sys2Proof.Machine
end

section
/-! Command words (30_encoding.md R80 to R88): `decode` and `encode` are inverse, and the decoder accepts exactly the
words that select a row of the opcode map. -/

namespace Sys2Proof

/-- How many low bits of the command word hold the operands of an operation (30_encoding.md R80, R81). -/
def Instr.operandBits : Instr → Nat
  | .enc _ => 24
  | .dec _ => 29
  | .bin _ => 8
  | .maj3 _ => 3
  | .score _ => 24
  | .hex2pl _ _ => 52
  | .rxReset => 0
  | .rxSample _ => 8
  | .txReset => 0
  | .txSend _ _ _ => 26
  | .txTick _ => 1

/-- The operation of the same name with the operands that stand in the word `w` (30_encoding.md R82 to R87). -/
def Instr.readFrom (w : Cmd) : Instr → Instr
  | .enc _ => .enc (w.extractLsb' 0 24)
  | .dec _ => .dec (w.extractLsb' 0 29)
  | .bin _ => .bin (w.extractLsb' 0 8)
  | .maj3 _ => .maj3 (w.extractLsb' 0 3)
  | .score _ => .score (w.extractLsb' 0 24)
  | .hex2pl _ _ => .hex2pl (w.extractLsb' 48 4) (w.extractLsb' 0 48)
  | .rxReset => .rxReset
  | .rxSample _ => .rxSample (w.extractLsb' 0 8)
  | .txReset => .txReset
  | .txSend _ _ _ => .txSend (w.extractLsb' 0 24) (w.getLsbD 24) (w.getLsbD 25)
  | .txTick _ => .txTick (w.getLsbD 0)

/-! ### The decoder by opcode -/

theorem accept_ok_iff (w : Cmd) (lo : Nat) (i j : Instr) :
    accept w lo j = .ok i ↔ zeroAbove w lo = true ∧ j = i := by
  unfold accept
  split <;> simp [*]

/-- A word with the opcode byte of an operation is that operation, if its must-be-zero bits are zero. -/
theorem decode_of_opcodeOf (w : Cmd) (i : Instr) (h : opcodeOf w = i.opcode) :
    decode w = accept w i.operandBits (i.readFrom w) := by
  unfold decode
  rw [h]
  cases i <;> rfl

/-- What a decoded word looks like: its opcode byte, its must-be-zero bits and its operands. -/
theorem fields_of_decode_ok (w : Cmd) (i : Instr) (h : decode w = .ok i) :
    opcodeOf w = i.opcode ∧ zeroAbove w i.operandBits = true ∧ i.readFrom w = i := by
  unfold decode at h
  split at h
  case h_12 => cases h
  all_goals
    next hop =>
    obtain ⟨hz, rfl⟩ := (accept_ok_iff _ _ _ _).1 h
    exact ⟨BitVec.eq_of_toNat_eq hop, hz, rfl⟩

/-! ### Words as concatenations of their fields -/

/-- A field and the field below it are one field. -/
theorem field_append_field (w : Cmd) (start len start' len' : Nat) (h : start = start' + len') :
    w.extractLsb' start len ++ w.extractLsb' start' len' = w.extractLsb' start' (len + len') :=
  BitVec.extractLsb'_append_extractLsb'_eq_extractLsb' h

theorem bitField_getLsbD (w : Cmd) (k : Nat) : bitField (w.getLsbD k) = w.extractLsb' k 1 := by
  apply BitVec.eq_of_getLsbD_eq
  intro j hj
  obtain rfl : j = 0 := by omega
  simp [bitField]

/-- A bit that stands as a field of width 1 in a word is read back. -/
theorem getLsbD_of_field (w : Cmd) (k : Nat) (b : Bool) (h : w.extractLsb' k 1 = bitField b) : w.getLsbD k = b := by
  rw [← bitField_getLsbD] at h
  exact BitVec.ofBool_eq_iff_eq.1 h

/-- Where the `m` must-be-zero bits above the operands are zero, the opcode byte and `m` zeros are a field of the
word. -/
theorem opcode_append_zeros (w : Cmd) (op : BitVec 8) (n m : Nat) (hm : n + m = 56) (hop : opcodeOf w = op)
    (hz : zeroAbove w n = true) : op ++ 0#m = w.extractLsb' n (8 + m) := by
  obtain rfl : m = 56 - n := by omega
  have hzero : w.extractLsb' n (56 - n) = 0#(56 - n) := by simpa [zeroAbove] using hz
  rw [← hzero, ← hop]
  exact field_append_field w 56 8 n (56 - n) hm.symm

/-- With its must-be-zero bits zero a word is its opcode byte, zeros and one operand field. -/
theorem opcode_append_operands (w : Cmd) (op : BitVec 8) (n m : Nat) (hm : n + m = 56) (hop : opcodeOf w = op)
    (hz : zeroAbove w n = true) : op ++ 0#m ++ w.extractLsb' 0 n = w.extractLsb' 0 (8 + m + n) := by
  rw [opcode_append_zeros w op n m hm hop hz]
  exact field_append_field w n (8 + m) 0 n (Nat.zero_add n).symm

/-- Encoding the operation that stands in a word gives the word. -/
theorem encode_readFrom (w : Cmd) (i : Instr) (hop : opcodeOf w = i.opcode) (hz : zeroAbove w i.operandBits = true) :
    encode (i.readFrom w) = w := by
  refine Eq.trans ?_ (BitVec.extractLsb'_eq_self (x := w))
  cases i with
  | enc => exact opcode_append_operands w _ 24 32 rfl hop hz
  | dec => exact opcode_append_operands w _ 29 27 rfl hop hz
  | bin => exact opcode_append_operands w _ 8 48 rfl hop hz
  | maj3 => exact opcode_append_operands w _ 3 53 rfl hop hz
  | score => exact opcode_append_operands w _ 24 32 rfl hop hz
  | hex2pl =>
    rw [Instr.readFrom, encode, opcode_append_zeros w 0x06#8 52 4 rfl hop hz, field_append_field w 52 12 48 4 rfl]
    exact field_append_field w 48 16 0 48 rfl
  | rxReset => exact opcode_append_zeros w _ 0 56 rfl hop hz
  | rxSample => exact opcode_append_operands w _ 8 48 rfl hop hz
  | txReset => exact opcode_append_zeros w _ 0 56 rfl hop hz
  | txSend =>
    rw [Instr.readFrom, encode, opcode_append_zeros w 0x21#8 26 30 rfl hop hz, bitField_getLsbD, bitField_getLsbD,
      field_append_field w 26 38 25 1 rfl, field_append_field w 25 39 24 1 rfl]
    exact field_append_field w 24 40 0 24 rfl
  | txTick =>
    rw [Instr.readFrom, encode, bitField_getLsbD]
    exact opcode_append_operands w _ 1 55 rfl hop hz

/-- Settles O56: a decoded word is its opcode byte, zeros and the operands read from it, which is what `encode` puts
together. -/
theorem encodeOfDecodeIsTheWord : Obligations.EncodeOfDecodeIsTheWord := by
  intro w i h
  obtain ⟨hop, hz, hi⟩ := fields_of_decode_ok w i h
  rw [← encode_readFrom w i hop hz, hi]

/-! ### The fields of an encoded operation -/

/-- The low part of a concatenation is a field of it. -/
theorem field_append_low {v m : Nat} (hd : BitVec v) (x : BitVec m) : (hd ++ x).extractLsb' 0 m = x := by
  rw [field_low hd x 0 m (Nat.zero_add m).le, BitVec.extractLsb'_eq_self]

/-- The zeros between a high part and the operand field. -/
theorem field_append_zeros {v n m : Nat} (hd : BitVec v) (x : BitVec n) : (hd ++ 0#m ++ x).extractLsb' n m = 0#m := by
  rw [field_high _ x n m le_rfl, Nat.sub_self, field_append_low]

/-- The must-be-zero bits of an encoded operation are zero (30_encoding.md R80). -/
theorem zeroAbove_encode (i : Instr) : zeroAbove (encode i) i.operandBits = true := by
  rw [zeroAbove, beq_iff_eq]
  cases i with
  | enc | dec | bin | maj3 | score | rxSample | txTick => exact field_append_zeros _ _
  | rxReset | txReset => rfl
  | hex2pl len ch => exact (field_high _ ch 52 4 (by decide)).trans (field_append_zeros 0x06#8 len)
  | txSend p avail ok =>
    calc (encode (.txSend p avail ok)).extractLsb' 26 30
        = (0x21#8 ++ 0#30 ++ bitField ok ++ bitField avail).extractLsb' 2 30 := field_high _ p 26 30 (by decide)
      _ = (0x21#8 ++ 0#30 ++ bitField ok).extractLsb' 1 30 := field_high _ (bitField avail) 2 30 (by decide)
      _ = 0#30 := field_append_zeros 0x21#8 (bitField ok)

/-- The operands that stand in an encoded operation are its own (30_encoding.md R82 to R87). -/
theorem readFrom_encode (i : Instr) : i.readFrom (encode i) = i := by
  cases i with
  | enc p => exact congrArg Instr.enc (field_append_low _ p)
  | dec c => exact congrArg Instr.dec (field_append_low _ c)
  | bin l => exact congrArg Instr.bin (field_append_low _ l)
  | maj3 g => exact congrArg Instr.maj3 (field_append_low _ g)
  | score w => exact congrArg Instr.score (field_append_low _ w)
  | hex2pl len ch =>
    have hlen : (encode (.hex2pl len ch)).extractLsb' 48 4 = len :=
      (field_high _ ch 48 4 le_rfl).trans (field_append_low _ len)
    exact congrArg₂ Instr.hex2pl hlen (field_append_low _ ch)
  | rxReset => rfl
  | rxSample l => exact congrArg Instr.rxSample (field_append_low _ l)
  | txReset => rfl
  | txSend p avail ok =>
    have havail : (encode (.txSend p avail ok)).extractLsb' 24 1 = bitField avail :=
      (field_high _ p 24 1 le_rfl).trans (field_append_low _ (bitField avail))
    have hok : (encode (.txSend p avail ok)).extractLsb' 25 1 = bitField ok :=
      calc (encode (.txSend p avail ok)).extractLsb' 25 1
          = (0x21#8 ++ 0#30 ++ bitField ok ++ bitField avail).extractLsb' 1 1 := field_high _ p 25 1 (by decide)
        _ = (0x21#8 ++ 0#30 ++ bitField ok).extractLsb' 0 1 := field_high _ (bitField avail) 1 1 le_rfl
        _ = bitField ok := field_append_low _ (bitField ok)
    rw [Instr.readFrom, getLsbD_of_field _ _ _ havail, getLsbD_of_field _ _ _ hok]
    exact congrArg (Instr.txSend · avail ok) (field_append_low _ p)
  | txTick ok => exact congrArg Instr.txTick (getLsbD_of_field _ 0 ok (field_append_low _ (bitField ok)))

/-- Settles O55: the encoded word has the operation's opcode byte, zeros above its operands, and its operands. -/
theorem decodeOfEncodeIsTheOperation : Obligations.DecodeOfEncodeIsTheOperation := by
  intro i
  rw [decode_of_opcodeOf (encode i) i (opcodeOf_encode i), accept_ok_iff]
  exact ⟨zeroAbove_encode i, readFrom_encode i⟩

/-! ### The decoder and the opcode map -/

/-- The rows of the map differ in their opcode bytes (30_encoding.md R81). -/
theorem opcodeRows_opcode_injective :
    ∀ r ∈ opcodeRows, ∀ r' ∈ opcodeRows, opcodeOf r.matchBits = opcodeOf r'.matchBits → r = r' := by decide

/-- No word selects two rows. -/
theorem selects_unique (w : Cmd) (r r' : OpcodeRow) (hr : r ∈ opcodeRows) (hr' : r' ∈ opcodeRows)
    (h : r.selects w = true) (h' : r'.selects w = true) : r = r' :=
  opcodeRows_opcode_injective r hr r' hr' ((selects_opcode r w hr h).symm.trans (selects_opcode r' w hr' h'))

theorem opcodeRows_filter_eq : ∀ r ∈ opcodeRows, opcodeRows.filter (fun r' => r' = r) = [r] := by decide

/-- A word that selects a row selects it alone. -/
theorem rowsSelected_eq_singleton (w : Cmd) (r : OpcodeRow) (hr : r ∈ opcodeRows) (h : r.selects w = true) :
    rowsSelected w = [r] := by
  rw [← opcodeRows_filter_eq r hr]
  apply List.filter_congr
  intro r' hr'
  rw [Bool.eq_iff_iff, decide_eq_true_iff]
  constructor
  · exact fun h' => selects_unique w r' r hr' hr h' h
  · rintro rfl
    exact h

/-- The two checks of 30_encoding.md R88 say that some row is selected. -/
theorem wellFormedWord_iff (w : Cmd) : wellFormedWord w = true ↔ ∃ r ∈ opcodeRows, r.selects w = true := by
  simp only [wellFormedWord, opcodeListed, reservedBitsZero, Bool.and_eq_true, List.any_eq_true, List.all_eq_true,
    beq_iff_eq, Bool.or_eq_true, Bool.not_eq_true']
  constructor
  · rintro ⟨⟨r, hr, hop⟩, hall⟩
    exact ⟨r, hr, (hall r hr).resolve_left (by simp [hop])⟩
  · rintro ⟨r, hr, h⟩
    have hop := selects_opcode r w hr h
    refine ⟨⟨r, hr, hop.symm⟩, fun r' hr' => ?_⟩
    by_cases hop' : opcodeOf r'.matchBits = opcodeOf w
    · obtain rfl := opcodeRows_opcode_injective r' hr' r hr (hop'.trans hop)
      exact .inr h
    · exact .inl (beq_false_of_ne hop')

/-- The word of an operation selects a row with its mnemonic: the per-instruction laws, together. -/
theorem encode_selects_row (i : Instr) : Laws.EncodeRow.Statement i := by
  cases i with
  | enc p => exact Laws.EncodeRow.enc p
  | dec c => exact Laws.EncodeRow.dec c
  | bin l => exact Laws.EncodeRow.bin l
  | maj3 g => exact Laws.EncodeRow.maj3 g
  | score w => exact Laws.EncodeRow.score w
  | hex2pl len ch => exact Laws.EncodeRow.hex2pl len ch
  | rxReset => exact Laws.EncodeRow.rxReset
  | rxSample l => exact Laws.EncodeRow.rxSample l
  | txReset => exact Laws.EncodeRow.txReset
  | txSend p avail ok => exact Laws.EncodeRow.txSend p avail ok
  | txTick ok => exact Laws.EncodeRow.txTick ok

/-- Where the mask of a selected row is all ones, the word has the row's bits. -/
theorem field_of_selects (r : OpcodeRow) (w : Cmd) (start len : Nat)
    (hm : r.mask.extractLsb' start len = BitVec.allOnes len) (h : r.selects w = true) :
    w.extractLsb' start len = r.matchBits.extractLsb' start len := by
  have hw : w &&& r.mask = r.matchBits := by simpa [OpcodeRow.selects] using h
  rw [← hw, BitVec.extractLsb'_and, hm, BitVec.and_allOnes]

/-- Each row of the map is that of an operation: its opcode byte, and a mask over all must-be-zero bits. -/
theorem opcodeRows_operation : ∀ r ∈ opcodeRows, ∃ i : Instr, opcodeOf r.matchBits = i.opcode ∧
    zeroAbove r.matchBits i.operandBits = true ∧
    r.mask.extractLsb' i.operandBits (56 - i.operandBits) = BitVec.allOnes (56 - i.operandBits) := by
  simp only [opcodeRows, List.forall_mem_cons]
  exact ⟨⟨.enc 0, by decide⟩, ⟨.dec 0, by decide⟩, ⟨.bin 0, by decide⟩, ⟨.maj3 0, by decide⟩, ⟨.score 0, by decide⟩,
    ⟨.hex2pl 0 0, by decide⟩, ⟨.rxReset, by decide⟩, ⟨.rxSample 0, by decide⟩, ⟨.txReset, by decide⟩,
    ⟨.txSend 0 false false, by decide⟩, ⟨.txTick false, by decide⟩, by simp⟩

/-- A word that selects a row decodes. -/
theorem decode_ok_of_selects (w : Cmd) (r : OpcodeRow) (hr : r ∈ opcodeRows) (h : r.selects w = true) :
    ∃ i, decode w = .ok i := by
  obtain ⟨i, hop, hz, hm⟩ := opcodeRows_operation r hr
  have hop' : opcodeOf w = i.opcode := (selects_opcode r w hr h).trans hop
  have hz' : zeroAbove w i.operandBits = true := by rwa [zeroAbove, field_of_selects r w _ _ hm h]
  exact ⟨i.readFrom w, (decode_of_opcodeOf w i hop').trans ((accept_ok_iff _ _ _ _).2 ⟨hz', rfl⟩)⟩

/-- Settles O57: a decoded word is the operation's own word, which selects its row; a word that selects any row
decodes. -/
theorem decoderAgreesWithTheOpcodeMap : Obligations.DecoderAgreesWithTheOpcodeMap := by
  refine fun w => ⟨fun i hi => ?ok, fun e he => ?error⟩
  case ok =>
    obtain ⟨r, hr, hname, hsel⟩ := encode_selects_row i
    rw [encodeOfDecodeIsTheWord w i hi] at hsel
    rw [rowsSelected_eq_singleton w r hr hsel, List.map_singleton, hname]
    exact ⟨rfl, (wellFormedWord_iff w).2 ⟨r, hr, hsel⟩⟩
  case error =>
    have hnone : ∀ r ∈ opcodeRows, ¬ r.selects w = true := fun r hr hsel => by
      obtain ⟨i, hi⟩ := decode_ok_of_selects w r hr hsel
      simp [hi] at he
    refine ⟨List.filter_eq_nil_iff.2 hnone, Bool.eq_false_iff.2 fun hwf => ?_⟩
    obtain ⟨r, hr, hsel⟩ := (wellFormedWord_iff w).1 hwf
    exact hnone r hr hsel

/-- Settles O54: each word is evaluated by the decoder. -/
theorem sampleWordsDecode : Obligations.SampleWordsDecode := by
  unfold Obligations.SampleWordsDecode
  decide

end Sys2Proof
end

section
/-! The range of the score (42_synchronizer.md R134) and what the vote absorbs (41_binarize_majority.md R123). -/

namespace Sys2Proof.Machine

/-- Of three observations two or three are `b` exactly when at most one is not. -/
theorem two_le_count_iff (x y z b : Bool) : 2 ≤ [x, y, z].count b ↔ [x, y, z].count (!b) ≤ 1 := by
  revert x y z b
  decide

/-- Settles O13: the vote is `b` exactly when two observations are, and then at most one is not. -/
theorem majorityVoteAbsorbsOneWrongObservation : Obligations.MajorityVoteAbsorbsOneWrongObservation := fun x y z b =>
  (maj3Val_three_eq_iff x y z b).trans (two_le_count_iff x y z b)

/-- A window all of whose groups match has at most one mismatch in each of its eight groups. -/
theorem windowMismatches_le_of_allGroupsMatch (w : Window) (h : AllGroupsMatch w) : windowMismatches w ≤ 8 := by
  have hgroup : ∀ g < 8, groupCount w g (!expectedBit g) ≤ 1 := fun g hg => by
    have h2 := h g hg
    rw [groupCount_eq_count] at h2 ⊢
    exact (two_le_count_iff _ _ _ _).1 h2
  have hsum := List.sum_le_card_nsmul ((List.range 8).map fun g => groupCount w g (!expectedBit g)) 1
    (by simpa using hgroup)
  simpa [windowMismatches] using hsum

/-- The score of a window is legal (42_synchronizer.md R134). -/
theorem legalScore_scoreVal_windowObs (w : Window) : LegalScore (scoreVal (windowObs w)) := by
  by_cases h : AllGroupsMatch w
  · have hle := windowMismatches_le_of_allGroupsMatch w h
    rw [scoreVal_of_allGroupsMatch w h]
    exact .inr (by omega)
  · exact .inl (scoreVal_of_not_allGroupsMatch w h)

/-- Settles O15: eight matching groups have at most eight mismatches in all, and a failing group gives 0. -/
theorem scoreIsZeroOrSixteenToTwentyFour : Obligations.ScoreIsZeroOrSixteenToTwentyFour := by
  refine fun w => ⟨legalScore_scoreVal_windowObs w, fun hpos => ?_, fun h => ?_⟩
  · by_contra h
    exact hpos.ne' (scoreVal_of_not_allGroupsMatch w h)
  · have hle := windowMismatches_le_of_allGroupsMatch w h
    rw [scoreVal_of_allGroupsMatch w h]
    omega

/-- `unpack` inverts `pack` on sequences of the right length (00_scope.md R11). -/
theorem unpack_pack (n : Nat) (q : List Bool) (hq : q.length = n) : unpack (pack n q) = q := by
  apply List.ext_getElem (by rw [unpack_length, hq])
  intro k h₁ h₂
  simp [unpack, pack_getMsbD n q hq, h₂]

/-- The score of any 24 observations is legal. -/
theorem legalScore_scoreVal (q : List Bool) (hq : q.length = 24) : LegalScore (scoreVal q) := by
  have h := legalScore_scoreVal_windowObs (pack 24 q)
  rwa [windowObs, unpack_pack 24 q hq] at h

end Sys2Proof.Machine
end

section
/-! The receiver's invariants (10_state.md R37 (a) to (e)): what they say in each phase, and that every sample and
RX.RESET keep them. -/

namespace Sys2Proof.Machine

theorem legal_zero : Hist.zero.Legal := ⟨.inl rfl, .inl rfl, .inl rfl⟩

section Phases
variable (r : RxState)

/-- R37 in INITIALIZING. -/
theorem inv_iff_of_initializing (hr : r.rxState = .initializing) :
    r.Inv ↔ r.initCount ≤ 29 ∧ r.startBuf = [] ∧ r.obsBuf = [] ∧ r.bitBuf = [] ∧ r.hist = Hist.zero := by
  constructor
  · rintro ⟨hclean, -⟩
    exact hclean hr
  · rintro ⟨hcount, hstart, hobs, hbits, hhist⟩
    refine ⟨fun _ => ⟨hcount, hstart, hobs, hbits, hhist⟩, fun hn => absurd hr hn, fun hs => ?_, fun hs => ?_,
      hhist ▸ legal_zero⟩ <;> simp [hr] at hs

/-- R37 in SEARCHING. -/
theorem inv_iff_of_searching (hr : r.rxState = .searching) :
    r.Inv ↔ r.initCount = 30 ∧ (r.obsBuf = [] ∧ r.bitBuf = [] ∧ r.startBuf.length ≤ 24 ∧ r.hist.slot0 = 0 ∧
      (r.startBuf.length < 24 → r.hist = Hist.zero)) ∧ r.hist.Legal := by
  constructor
  · rintro ⟨-, hcount, hclean, -, hlegal⟩
    exact ⟨hcount (by simp [hr]), hclean hr, hlegal⟩
  · rintro ⟨hcount, hclean, hlegal⟩
    refine ⟨fun hs => ?_, fun _ => hcount, fun _ => hclean, fun hs => ?_, hlegal⟩ <;> simp [hr] at hs

/-- R37 in RECEIVING. -/
theorem inv_iff_of_receiving (hr : r.rxState = .receiving) :
    r.Inv ↔ r.initCount = 30 ∧ r.startBuf = [] ∧ r.hist = Hist.zero ∧ r.obsBuf.length ≤ 2 ∧ r.bitBuf.length ≤ 28 := by
  constructor
  · rintro ⟨-, hcount, -, hclean, -⟩
    exact ⟨hcount (by simp [hr]), hclean hr⟩
  · rintro ⟨hcount, hstart, hhist, hbufs⟩
    refine ⟨fun hs => ?_, fun _ => hcount, fun hs => ?_, fun _ => ⟨hstart, hhist, hbufs⟩, hhist ▸ legal_zero⟩ <;>
      simp [hr] at hs

/-- A receiver that has just returned to SEARCHING, with all buffers empty, has the invariants. -/
theorem inv_of_fresh_search (hr : r.rxState = .searching) (hcount : r.initCount = 30) (hstart : r.startBuf = [])
    (hhist : r.hist = Hist.zero) (hobs : r.obsBuf = []) (hbits : r.bitBuf = []) : r.Inv := by
  rw [inv_iff_of_searching r hr, hhist, hstart]
  exact ⟨hcount, ⟨hobs, hbits, Nat.zero_le _, rfl, fun _ => rfl⟩, legal_zero⟩

end Phases

theorem rxResetOp_inv (r : RxState) : (rxResetOp r).1.Inv :=
  (inv_iff_of_initializing _ rfl).2 ⟨Nat.zero_le _, rfl, rfl, rfl, rfl⟩

theorem sampleInitializing_inv (r : RxState) (hr : r.rxState = .initializing) (h : r.Inv) :
    (sampleInitializing r).1.Inv := by
  obtain ⟨hcount, hstart, hobs, hbits, hhist⟩ := (inv_iff_of_initializing r hr).1 h
  rcases sampleInitializing_cases r with ⟨-, e⟩ | ⟨hne, e⟩ <;> rw [e]
  · exact inv_of_fresh_search _ rfl rfl hstart hhist hobs hbits
  · refine (inv_iff_of_initializing _ (by exact hr)).2 ⟨?_, hstart, hobs, hbits, hhist⟩
    show r.initCount + 1 ≤ 29
    omega

/-- The score pushed by a sample is legal: 0 while the buffer is short, else that of 24 observations. -/
theorem legalScore_syncHist_slot2 (o : Bool) (r : RxState) : LegalScore (syncHist o r).slot2 := by
  rw [syncHist_eq]
  split
  next => exact .inl rfl
  next hlen => exact legalScore_scoreVal _ (by rw [syncBuffer_length]; omega)

theorem sampleSearching_inv (cfg : Config) (o : Bool) (r : RxState) (hr : r.rxState = .searching) (h : r.Inv) :
    (sampleSearching cfg o r).1.Inv := by
  obtain ⟨hcount, ⟨hobs, hbits, -, -, hshort⟩, -, -, hlegal2⟩ := (inv_iff_of_searching r hr).1 h
  rcases sampleSearching_cases cfg o r with ⟨-, e⟩ | ⟨hslot1, e⟩ <;> rw [e]
  · refine (inv_iff_of_receiving _ rfl).2 ⟨hcount, rfl, rfl, ?_, by simp [hbits]⟩
    exact (lastN_length _ _).trans_le ((Nat.min_le_left _ _).trans (carryCount_le cfg _))
  · have hnew := legalScore_syncHist_slot2 o r
    have hbuf := syncBuffer_length r.startBuf o
    rw [syncHist_eq] at hnew ⊢
    refine (inv_iff_of_searching _ (by exact hr)).2
      ⟨hcount, ⟨hobs, hbits, hbuf.trans_le (Nat.min_le_left _ _), hslot1, fun hlt => ?_⟩, .inl hslot1, hlegal2, hnew⟩
    have hlt' : r.startBuf.length + 1 < 24 := by
      replace hlt : (syncBuffer r.startBuf o).length < 24 := hlt
      omega
    rw [if_pos hlt', hshort (by omega)]
    rfl

theorem sampleReceiving_inv (o : Bool) (r : RxState) (hr : r.rxState = .receiving) (h : r.Inv) :
    (sampleReceiving o r).1.Inv := by
  obtain ⟨hcount, hstart, hhist, -, hbits⟩ := (inv_iff_of_receiving r hr).1 h
  rcases sampleReceiving_cases o r with ⟨-, e⟩ | ⟨hobs, e⟩ | ⟨-, hne, e⟩ | ⟨-, -, e⟩ <;> rw [e]
  · exact inv_of_fresh_search _ rfl hcount hstart hhist rfl rfl
  · exact (inv_iff_of_receiving _ (by exact hr)).2 ⟨hcount, hstart, hhist, by simpa using hobs, hbits⟩
  · exact (inv_iff_of_receiving _ (by exact hr)).2 ⟨hcount, hstart, hhist, Nat.zero_le _, by simp; omega⟩
  · exact inv_of_fresh_search _ rfl hcount hstart hhist rfl rfl

/-- Settles O52: each of the three behaviours of a sample keeps what the invariants say in its phase. -/
theorem samplesKeepTheReceiverInvariantsForEveryConfig :
    Obligations.SamplesKeepTheReceiverInvariantsForEveryConfig := by
  intro cfg l r h
  cases hr : r.rxState with
  | initializing => rw [rxSampleOp_initializing cfg l r hr]; exact sampleInitializing_inv r hr h
  | searching => rw [rxSampleOp_searching cfg l r hr]; exact sampleSearching_inv cfg _ r hr h
  | receiving => rw [rxSampleOp_receiving cfg l r hr]; exact sampleReceiving_inv _ r hr h

end Sys2Proof.Machine
end

section
/-! The transmit operations (44_modulator.md R177 to R179), one equation per case. -/

namespace Sys2Proof.Machine

/-- TX.SEND, by what it does to the transmit state. -/
theorem exec_txSend_of_op {p : Payload} {avail ok : Bool} {s : State} {t : TxState} {es : List Event}
    (h : txSendOp blockConfig p avail ok s.tx = (t, es)) :
    exec (.txSend p avail ok) s = .next { s with tx := t, events := s.events ++ es } := by
  rw [exec_eq_next, execState, runTx, h]
  rfl

/-- TX.TICK, by what it does to the transmit state. -/
theorem exec_txTick_of_op {ok : Bool} {s : State} {t : TxState} {es : List Event}
    (h : txTickOp blockConfig ok s.tx = (t, es)) :
    exec (.txTick ok) s = .next { s with tx := t, events := s.events ++ es } := by
  rw [exec_eq_next, execState, runTx, h]
  rfl

section Operations
variable (cfg : Config) (p : Payload) (avail ok : Bool) (t : TxState)

theorem txSendOp_of_run (h : t.txRun = true) : txSendOp cfg p avail ok t = (t, [.txResult 2#2]) := by
  rcases txSendOp_cases cfg p avail ok t with ⟨-, e⟩ | ⟨h', -⟩ | ⟨h', -⟩
  · exact e
  all_goals simp [h] at h'

theorem txSendOp_unavailable (h : t.txRun = false) : txSendOp cfg p false ok t = (t, [.txResult 1#2]) := by
  rcases txSendOp_cases cfg p false ok t with ⟨h', -⟩ | ⟨-, -, e⟩ | ⟨-, h', -⟩
  · simp [h] at h'
  · exact e
  · cases h'

theorem txSendOp_accepted (h : t.txRun = false) :
    txSendOp cfg p true ok t =
      ({ txRun := true, txFrame := buildFrame p, txIndex := 1, txPrev := true, txFail := !ok },
        .txResult 0#2 :: .txActOn cfg.txIntensity :: (if ok then [] else [.txActFail])) := by
  rcases txSendOp_cases cfg p true ok t with ⟨h', -⟩ | ⟨-, h', -⟩ | ⟨-, -, e⟩
  · simp [h] at h'
  · cases h'
  · exact e

theorem txTickOp_of_idle (h : t.txRun = false) : txTickOp cfg ok t = (t, []) := by simp [txTickOp, h]

theorem txTickOp_of_run (h : t.txRun = true) : txTickOp cfg ok t = tickWork cfg ok t := by simp [txTickOp, h]

/-- A tick past the end of the frame (44_modulator.md R178). -/
theorem txTickOp_end (h : t.txRun = true) (hi : 43 ≤ t.txIndex) :
    txTickOp cfg ok t =
      ({ t with txRun := false, txIndex := 0, txPrev := false, txFail := t.txFail || !ok },
        .txActOff :: ((if ok then [] else [.txActFail]) ++ [.txDone])) := by
  rw [txTickOp_of_run cfg ok t h, tickWork_eq, if_pos hi]
  rfl

/-- A tick whose frame bit is the one on the wire makes no call (44_modulator.md R178). -/
theorem txTickOp_same (h : t.txRun = true) (hi : t.txIndex < 43) (hb : frameBit t.txFrame t.txIndex = t.txPrev) :
    txTickOp cfg ok t = ({ t with txIndex := t.txIndex + 1 }, []) := by
  rw [txTickOp_of_run cfg ok t h, tickWork_eq, if_neg hi.not_ge, if_pos hb]

/-- A tick whose frame bit differs from the one on the wire makes one call (44_modulator.md R178). -/
theorem txTickOp_change (h : t.txRun = true) (hi : t.txIndex < 43) (hb : frameBit t.txFrame t.txIndex ≠ t.txPrev) :
    txTickOp cfg ok t =
      ({ t with txIndex := t.txIndex + 1, txPrev := frameBit t.txFrame t.txIndex, txFail := t.txFail || !ok },
        levelCommand cfg (frameBit t.txFrame t.txIndex) :: (if ok then [] else [.txActFail])) := by
  rw [txTickOp_of_run cfg ok t h, tickWork_eq, if_neg hi.not_ge, if_neg hb, ← Bool.eq_not_of_ne hb, withCall,
    List.append_nil, List.nil_append]

end Operations

/-- Settles O31: the busy send keeps the transmit state and reports BUSY. -/
theorem sendIsRefusedWhileSending : Obligations.SendIsRefusedWhileSending := fun p avail ok s h =>
  exec_txSend_of_op (txSendOp_of_run _ p avail ok s.tx h)

/-- Settles O32: the idle send without the actuator keeps the transmit state and reports UNAVAILABLE. -/
theorem sendIsRefusedWhenUnavailable : Obligations.SendIsRefusedWhenUnavailable := fun p ok s h =>
  exec_txSend_of_op (txSendOp_unavailable _ p ok s.tx h)

/-- Settles O34: the idle tick emits nothing. -/
theorem tickWhileIdleDoesNothing : Obligations.TickWhileIdleDoesNothing := fun ok s h => by
  rw [exec_txTick_of_op (txTickOp_of_idle _ ok s.tx h), List.append_nil]

/-- Settles O35: the two cases of a tick inside the frame. -/
theorem tickSendsTheNextFrameBit : Obligations.TickSendsTheNextFrameBit := by
  rintro ok s b hrun hi rfl
  split
  next hb =>
    rw [exec_txTick_of_op (txTickOp_same _ ok s.tx hrun hi hb), List.append_nil]
  next hb => exact exec_txTick_of_op (txTickOp_change _ ok s.tx hrun hi hb)

/-- Settles O36: the tick past the end of the frame. -/
theorem finalTickForcesTheActuatorOff : Obligations.FinalTickForcesTheActuatorOff := fun ok s hrun hi =>
  exec_txTick_of_op (txTickOp_end _ ok s.tx hrun hi)

/-- Settles O37: TX.RESET, evaluated. -/
theorem txResetAbortsWithTheActuatorOff : Obligations.TxResetAbortsWithTheActuatorOff := fun s =>
  exec_eq_next .txReset s

/-- The preamble stands in the first 14 frame bits (30_encoding.md R74). -/
theorem frameBit_buildFrame_preamble (p : Payload) (k : Nat) (hk : k < 14) :
    frameBit (buildFrame p) k = (stabPattern ++ startPattern).getD k false := by
  rw [frameBit_buildFrame, List.getD_append _ _ _ _ hk]

/-- The Codeword stands in the other 29 frame bits (30_encoding.md R74). -/
theorem frameBit_buildFrame_codeword (p : Payload) (i : Nat) :
    frameBit (buildFrame p) (14 + (i - 1)) = codeBit (encVal p) i := by
  have hle : (stabPattern ++ startPattern).length ≤ 14 + (i - 1) := Nat.le_add_right 14 _
  rw [frameBit_buildFrame, List.getD_append_right _ _ _ _ hle, unpack_getD, codeBit]
  congr 1
  exact Nat.add_sub_cancel_left 14 _

/-- Settles O33: the accepted send, with the frame read through its two parts. -/
theorem acceptedSendStartsTheFrame : Obligations.AcceptedSendStartsTheFrame := fun p ok s h =>
  ⟨buildFrame p, exec_txSend_of_op (txSendOp_accepted _ p ok s.tx h), frameBit_buildFrame_preamble p,
    fun i _ _ => frameBit_buildFrame_codeword p i⟩

end Sys2Proof.Machine
end

section
/-! The timeline of a transmission (44_modulator.md §3): where it stands after each tick and which calls it has made. -/

namespace Sys2Proof.Machine

/-- The transmission of the frame `f` with bit `n` on the wire: the clause (g) of 10_state.md R37 at `txIndex = n + 1`.
An accepted send reaches bit 0 (`atBit_txSendOp`), a tick the next bit (`AtBit.tick`). -/
structure AtBit (f : Frame) (n : Nat) (t : TxState) : Prop where
  run : t.txRun = true
  frame : t.txFrame = f
  index : t.txIndex = n + 1
  prev : t.txPrev = frameBit f n

theorem atBit_txSendOp (cfg : Config) (p : Payload) (ok : Bool) (t : TxState) (h : t.txRun = false) :
    AtBit (buildFrame p) 0 (txSendOp cfg p true ok t).1 := by
  rw [txSendOp_accepted cfg p ok t h]
  exact ⟨rfl, rfl, rfl, (frameBit_buildFrame_zero p).symm⟩

/-- A failed call is no level command (44_modulator.md R182). -/
@[simp] theorem filterMap_commandLevel_failure (ok : Bool) :
    (if ok then [] else [Event.txActFail]).filterMap commandLevel = [] := by cases ok <;> rfl

section Tick
variable {f : Frame} {n : Nat} {t : TxState} (h : AtBit f n t) (hn : n < 42) (cfg : Config) (ok : Bool)
include h hn

/-- A tick inside the frame puts the next bit on the wire. -/
theorem AtBit.tick : AtBit f (n + 1) (txTickOp cfg ok t).1 := by
  obtain ⟨hrun, hframe, hindex, -⟩ := h
  have hi : t.txIndex < 43 := by omega
  have hbit : frameBit t.txFrame t.txIndex = frameBit f (n + 1) := by rw [hframe, hindex]
  by_cases hb : frameBit t.txFrame t.txIndex = t.txPrev
  · rw [txTickOp_same cfg ok t hrun hi hb]
    exact ⟨hrun, hframe, congrArg (· + 1) hindex, hb.symm.trans hbit⟩
  · rw [txTickOp_change cfg ok t hrun hi hb]
    exact ⟨hrun, hframe, congrArg (· + 1) hindex, hbit⟩

/-- Its call, if any, is the change of level to that bit. -/
theorem AtBit.tick_calls :
    (txTickOp cfg ok t).2.filterMap commandLevel = levelChanges (frameBit f n) [frameBit f (n + 1)] := by
  obtain ⟨hrun, hframe, hindex, hprev⟩ := h
  have hi : t.txIndex < 43 := by omega
  rw [← hprev, ← hframe, ← hindex, levelChanges]
  split
  next hb => rw [txTickOp_same cfg ok t hrun hi hb]; rfl
  next hb =>
    rw [txTickOp_change cfg ok t hrun hi hb,
      List.filterMap_cons_some (commandLevel_levelCommand cfg _), filterMap_commandLevel_failure]
    rfl

end Tick

/-- A run of ticks inside the frame advances it by as many bits. -/
theorem AtBit.runTicks {f : Frame} {n : Nat} {t : TxState} (h : AtBit f n t) (cfg : Config) (oks : List Bool)
    (hn : n + oks.length ≤ 42) : AtBit f (n + oks.length) (runTicks cfg oks t).1 := by
  induction oks generalizing n t with
  | nil => exact h
  | cons ok oks ih =>
    rw [List.length_cons, Nat.add_comm oks.length, ← Nat.add_assoc] at hn ⊢
    exact ih (h.tick (by omega) cfg ok) hn

/-- The first change of level, then the changes after it. -/
theorem levelChanges_cons (a b : Bool) (bs : List Bool) :
    levelChanges a (b :: bs) = levelChanges a [b] ++ levelChanges b bs := by
  rw [levelChanges, levelChanges]
  split <;> rfl

/-- The calls of a run of ticks inside the frame are the changes of level of the bits it sends. -/
theorem AtBit.runTicks_calls {f : Frame} {n : Nat} {t : TxState} (h : AtBit f n t) (cfg : Config) (oks : List Bool)
    (hn : n + oks.length ≤ 42) :
    (Machine.runTicks cfg oks t).2.filterMap commandLevel =
      levelChanges (frameBit f n) ((List.range' (n + 1) oks.length).map (frameBit f)) := by
  induction oks generalizing n t with
  | nil => rfl
  | cons ok oks ih =>
    rw [List.length_cons, Nat.add_comm oks.length, ← Nat.add_assoc] at hn
    rw [runTicks_cons, List.filterMap_append, h.tick_calls (by omega) cfg ok, ih (h.tick (by omega) cfg ok) hn,
      List.length_cons, List.range'_succ, List.map_cons, ← levelChanges_cons]

theorem runTicks_concat (cfg : Config) (oks : List Bool) (ok : Bool) (t : TxState) :
    runTicks cfg (oks ++ [ok]) t =
      ((txTickOp cfg ok (runTicks cfg oks t).1).1,
        (runTicks cfg oks t).2 ++ (txTickOp cfg ok (runTicks cfg oks t).1).2) := by
  induction oks generalizing t with
  | nil => simp [runTicks_cons]
  | cons ok' oks ih => rw [List.cons_append, runTicks_cons, ih, runTicks_cons, List.append_assoc]

/-- Settles O39: the send reaches bit 0, `n` ticks bit `n`, and the tick after bit 42 ends the frame. -/
theorem transmissionTakesExactlyFortyThreeTicks : Obligations.TransmissionTakesExactlyFortyThreeTicks := by
  rintro cfg p ok t _ oks hidle rfl
  have hstart := atBit_txSendOp cfg p ok t hidle
  constructor
  · intro hlen
    obtain ⟨hrun, hframe, hindex, hprev⟩ := hstart.runTicks cfg oks (by omega)
    rw [Nat.zero_add] at hindex hprev
    rw [hstart.frame]
    exact ⟨hrun, hindex, hframe, hprev⟩
  · intro hlen
    obtain ⟨oks, last, rfl⟩ := (List.eq_nil_or_concat' oks).resolve_left (by rintro rfl; simp at hlen)
    have hlen' : oks.length = 42 := by simpa using hlen
    obtain ⟨hrun, -, hindex, -⟩ := hstart.runTicks cfg oks (by omega)
    rw [runTicks_concat, txTickOp_end cfg last _ hrun (by omega)]
    refine ⟨rfl, rfl, rfl, ?_⟩
    rw [← List.cons_append, ← List.append_assoc, List.getLast?_concat]

/-- Settles O40: the send calls for bit 0, a 1 after off, and the ticks for the changes of level after it. -/
theorem actuatorCallsAreTheBitTransitions : Obligations.ActuatorCallsAreTheBitTransitions := by
  intro cfg p ok t oks hidle hlen
  have hsend :
      (txSendOp cfg p true ok t).2.filterMap commandLevel = levelChanges false [frameBit (buildFrame p) 0] := by
    rw [txSendOp_accepted cfg p ok t hidle, frameBit_buildFrame_zero, List.filterMap_cons_none rfl,
      List.filterMap_cons_some (by rfl), filterMap_commandLevel_failure]
    rfl
  have hticks := (atBit_txSendOp cfg p ok t hidle).runTicks_calls cfg oks (by omega)
  rw [List.filterMap_append, hsend, hticks, ← levelChanges_cons, ← List.map_cons, List.range_eq_range',
    List.range'_succ]

end Sys2Proof.Machine
end

section
/-! The transmitter's invariants (10_state.md R37 (f), (g)), the level it last commanded (44_modulator.md R181), and the
frame in flight (20_memory.md R63): what each transmit operation keeps. -/

namespace Sys2Proof.Machine

theorem inv_of_idle (t : TxState) (hrun : t.txRun = false) (hprev : t.txPrev = false) (hindex : t.txIndex = 0) :
    t.Inv :=
  ⟨fun _ => ⟨hprev, hindex⟩, fun h => by simp [hrun] at h⟩

theorem AtBit.inv {f : Frame} {n : Nat} {t : TxState} (h : AtBit f n t) (hn : n ≤ 42) : t.Inv := by
  obtain ⟨hrun, rfl, hindex, hprev⟩ := h
  refine ⟨fun h => by simp [hrun] at h, fun _ => ⟨by omega, by omega, ?_⟩⟩
  rw [hprev, hindex, Nat.add_sub_cancel]

/-- A running transmitter with the invariants has some bit of its frame on the wire. -/
theorem atBit_of_inv {t : TxState} (h : t.Inv) (hrun : t.txRun = true) :
    AtBit t.txFrame (t.txIndex - 1) t ∧ t.txIndex - 1 ≤ 42 := by
  obtain ⟨-, hsend⟩ := h
  obtain ⟨h1, h43, hprev⟩ := hsend hrun
  exact ⟨⟨hrun, rfl, by omega, hprev⟩, by omega⟩

section Invariants
variable (cfg : Config) (p : Payload) (avail ok : Bool) (t : TxState)

theorem txResetOp_inv : (txResetOp t).1.Inv := inv_of_idle _ rfl rfl rfl

theorem txSendOp_inv (h : t.Inv) : (txSendOp cfg p avail ok t).1.Inv := by
  cases hrun : t.txRun with
  | true => rwa [txSendOp_of_run cfg p avail ok t hrun]
  | false =>
    cases avail with
    | true => exact (atBit_txSendOp cfg p ok t hrun).inv (Nat.zero_le _)
    | false => rwa [txSendOp_unavailable cfg p ok t hrun]

theorem txTickOp_inv (h : t.Inv) : (txTickOp cfg ok t).1.Inv := by
  cases hrun : t.txRun with
  | false => rwa [txTickOp_of_idle cfg ok t hrun]
  | true =>
    obtain ⟨hbit, hle⟩ := atBit_of_inv h hrun
    by_cases hlast : 43 ≤ t.txIndex
    · rw [txTickOp_end cfg ok t hrun hlast]
      exact inv_of_idle _ rfl rfl rfl
    · exact (hbit.tick (by omega) cfg ok).inv (by omega)

end Invariants

section Level
variable (cfg : Config) (p : Payload) (avail ok : Bool) (t : TxState)

/-- The level commanded by a call, with the report of its failure and an event that is no command. -/
theorem lastLevel_call (cmd : Event) (b : Bool) (rest : List Event) (hcmd : commandLevel cmd = some b)
    (hrest : rest.filterMap commandLevel = []) : lastLevel (cmd :: rest) = some b := by
  rw [lastLevel, List.filterMap_cons_some hcmd, hrest]
  rfl

theorem txResetOp_level : (lastLevel (txResetOp t).2).getD t.txPrev = (txResetOp t).1.txPrev := rfl

theorem txSendOp_level :
    (lastLevel (txSendOp cfg p avail ok t).2).getD t.txPrev = (txSendOp cfg p avail ok t).1.txPrev := by
  rcases txSendOp_cases cfg p avail ok t with ⟨-, e⟩ | ⟨-, -, e⟩ | ⟨-, -, e⟩ <;> rw [e]
  · rfl
  · rfl
  · have h := lastLevel_call (.txActOn cfg.txIntensity) true _ rfl (filterMap_commandLevel_failure ok)
    exact congrArg (·.getD t.txPrev) h

theorem txTickOp_level : (lastLevel (txTickOp cfg ok t).2).getD t.txPrev = (txTickOp cfg ok t).1.txPrev := by
  rcases txTickOp_cases cfg ok t with ⟨-, e⟩ | ⟨-, e⟩ <;> rw [e]
  · rfl
  · rcases tickWork_cases cfg ok t with ⟨-, e⟩ | ⟨-, -, e⟩ | ⟨-, -, e⟩ <;> rw [e]
    · rw [lastLevel_call .txActOff false _ rfl (by simp [commandLevel])]
      rfl
    · rfl
    · rw [lastLevel_call _ (!t.txPrev) _ (commandLevel_levelCommand cfg _) (filterMap_commandLevel_failure ok)]
      rfl

/-- The last of the levels commanded before and in an operation. -/
theorem lastLevel_append (es fs : List Event) : lastLevel (es ++ fs) = (lastLevel fs).or (lastLevel es) := by
  rw [lastLevel, List.filterMap_append, List.getLast?_append]
  rfl

end Level

section Frame
variable (cfg : Config) (p : Payload) (avail ok : Bool) (t : TxState)

theorem txTickOp_txFrame : (txTickOp cfg ok t).1.txFrame = t.txFrame := by
  unfold txTickOp tickWork
  split_ifs <;> simp

/-- A send writes the frame only if it is accepted (44_modulator.md R177). -/
theorem txSendOp_txFrame :
    (txSendOp cfg p avail ok t).1.txFrame = t.txFrame ∨
      avail = true ∧ t.txRun = false ∧ (txSendOp cfg p avail ok t).1.txFrame = buildFrame p := by
  rcases txSendOp_cases cfg p avail ok t with ⟨-, e⟩ | ⟨-, -, e⟩ | ⟨hrun, havail, e⟩ <;> rw [e]
  · exact .inl rfl
  · exact .inl rfl
  · exact .inr ⟨havail, hrun, rfl⟩

end Frame

/-- Only the transmitter's own operations touch its record (10_state.md R20). -/
theorem execState_tx_of_agent_ne (i : Instr) (s : State) (hi : instrAgent i ≠ .tx) : (execState i s).tx = s.tx := by
  cases i with
  | txReset | txSend | txTick => exact absurd rfl hi
  | enc | dec | bin | maj3 | score | hex2pl => exact emit_tx _ s
  | rxReset | rxSample => exact runRx_tx _ s

/-- Settles O41: TX.RESET and TX.TICK keep the frame, a send writes it when it is accepted, and no other operation
touches the transmitter. -/
theorem onlyAnAcceptedSendWritesTheFrame : Obligations.OnlyAnAcceptedSendWritesTheFrame := by
  intro i s t ht
  obtain rfl := (exec_next_iff i s t).1 ht
  have hwrite : (execState i s).tx.txFrame = s.tx.txFrame ∨ ∃ p ok, i = .txSend p true ok ∧ s.tx.txRun = false ∧
      (execState i s).tx.txFrame = buildFrame p := by
    cases i with
    | txSend p avail ok =>
      rcases txSendOp_txFrame blockConfig p avail ok s.tx with h | ⟨rfl, h⟩
      · exact .inl h
      · exact .inr ⟨p, ok, rfl, h⟩
    | txTick ok => exact .inl (txTickOp_txFrame blockConfig ok s.tx)
    | _ => exact .inl rfl
  refine ⟨fun hrun => hwrite.resolve_right ?_, hwrite⟩
  rintro ⟨p, ok, -, hidle, -⟩
  simp [hrun] at hidle

end Sys2Proof.Machine
end

section
/-! The whole machine: what an operation may read and write (10_state.md R20), what a step does (30_encoding.md R80,
R88), the resets (10_state.md R39), and the invariants every step keeps (10_state.md R37, 44_modulator.md R181). -/

namespace Sys2Proof.Machine

/-! ### Operations and agents -/

/-- An operation of an agent: it reads and writes that agent's record only and emits that agent's events only. `exec`
does nothing else (`actsFor_execState`). -/
inductive ActsFor : Agent → (State → State) → Prop where
  | fn (es : List Event) (hes : ∀ e ∈ es, eventAgent e = .fn) : ActsFor .fn (emit es)
  | rx (f : RxState → RxState × List Event) (hf : ∀ r, ∀ e ∈ (f r).2, eventAgent e = .rx) : ActsFor .rx (runRx f)
  | tx (g : TxState → TxState × List Event) (hg : ∀ t, ∀ e ∈ (g t).2, eventAgent e = .tx) : ActsFor .tx (runTx g)

/-- Every event of a sample is the receiver's. -/
theorem rxSampleOp_agent (cfg : Config) (l : cfg.Sample) (r : RxState) :
    ∀ e ∈ (rxSampleOp cfg l r).2, eventAgent e = .rx := by
  cases hr : r.rxState with
  | initializing =>
    rw [rxSampleOp_initializing cfg l r hr]
    rcases sampleInitializing_cases r with ⟨-, e⟩ | ⟨-, e⟩ <;> rw [e] <;> simp [eventAgent]
  | searching =>
    rw [rxSampleOp_searching cfg l r hr]
    rcases sampleSearching_cases cfg (binarize cfg l) r with ⟨-, e⟩ | ⟨-, e⟩ <;> rw [e] <;> simp [eventAgent]
  | receiving =>
    rw [rxSampleOp_receiving cfg l r hr]
    rcases sampleReceiving_cases (binarize cfg l) r with ⟨-, e⟩ | ⟨-, e⟩ | ⟨-, -, e⟩ | ⟨-, -, e⟩ <;> rw [e] <;>
      simp [eventAgent]

/-- The report of a failed call is the transmitter's. -/
theorem failure_agent (ok : Bool) : ∀ e ∈ (if ok then [] else [Event.txActFail]), eventAgent e = .tx := by
  cases ok <;> simp [eventAgent]

@[simp] theorem eventAgent_levelCommand (cfg : Config) (b : Bool) : eventAgent (levelCommand cfg b) = .tx := by
  cases b <;> rfl

/-- Every event of a send is the transmitter's. -/
theorem txSendOp_agent (cfg : Config) (p : Payload) (avail ok : Bool) (t : TxState) :
    ∀ e ∈ (txSendOp cfg p avail ok t).2, eventAgent e = .tx := by
  rcases txSendOp_cases cfg p avail ok t with ⟨-, e⟩ | ⟨-, -, e⟩ | ⟨-, -, e⟩ <;> rw [e] <;>
    simp [eventAgent]

/-- Every event of a tick is the transmitter's. -/
theorem txTickOp_agent (cfg : Config) (ok : Bool) (t : TxState) :
    ∀ e ∈ (txTickOp cfg ok t).2, eventAgent e = .tx := by
  rcases txTickOp_cases cfg ok t with ⟨-, e⟩ | ⟨-, e⟩ <;> rw [e]
  · simp
  · rcases tickWork_cases cfg ok t with ⟨-, e⟩ | ⟨-, -, e⟩ | ⟨-, -, e⟩ <;> rw [e]
    · have h := failure_agent ok
      simp only [List.forall_mem_cons, List.forall_mem_append]
      exact ⟨rfl, h, by simp [eventAgent]⟩
    · simp
    · simpa using failure_agent ok

theorem actsFor_execState (i : Instr) : ActsFor (instrAgent i) (execState i) := by
  cases i with
  | enc | dec | bin | maj3 | score => exact .fn _ (by simp [eventAgent])
  | hex2pl len ch => exact .fn _ (by simp only [hexResult]; split <;> simp [eventAgent])
  | rxReset => exact .rx _ fun r => by simp [rxResetOp, eventAgent]
  | rxSample l => exact .rx _ (rxSampleOp_agent blockConfig l)
  | txReset => exact .tx _ fun t => by simp [txResetOp, eventAgent]
  | txSend p avail ok => exact .tx _ (txSendOp_agent blockConfig p avail ok)
  | txTick ok => exact .tx _ (txTickOp_agent blockConfig ok)

section Agents
variable {a b : Agent} {f g : State → State}

/-- The queue is nobody's to write. -/
theorem ActsFor.input (h : ActsFor a f) (s : State) : (f s).input = s.input := by cases h <;> rfl

theorem ActsFor.events (h : ActsFor a f) (s : State) :
    ∃ es, (f s).events = s.events ++ es ∧ ∀ e ∈ es, eventAgent e = a := by
  cases h with
  | fn es hes => exact ⟨es, rfl, hes⟩
  | rx f hf => exact ⟨(f s.rx).2, rfl, hf s.rx⟩
  | tx g hg => exact ⟨(g s.tx).2, rfl, hg s.tx⟩

/-- Settles O45: an operation writes as an operation of its agent does. -/
theorem operationsTouchOnlyTheirOwnRecord : Obligations.OperationsTouchOnlyTheirOwnRecord := by
  intro i s t ht
  obtain rfl := (exec_next_iff i s t).1 ht
  exact ⟨execState_rx_of_agent_ne i s, execState_tx_of_agent_ne i s, (actsFor_execState i).input s,
    (actsFor_execState i).events s⟩

/-- What an operation of an agent does depends on that agent's record only. -/
theorem ActsFor.congr (h : ActsFor a f) (s s' : State) (hrx : a = .rx → s.rx = s'.rx) (htx : a = .tx → s.tx = s'.tx) :
    ∃ es, (f s).events = s.events ++ es ∧ (f s').events = s'.events ++ es ∧
      (a = .rx → (f s).rx = (f s').rx) ∧ (a = .tx → (f s).tx = (f s').tx) := by
  cases h with
  | fn es => exact ⟨es, rfl, rfl, nofun, nofun⟩
  | rx f =>
    have heq := hrx rfl
    exact ⟨(f s.rx).2, rfl, by rw [heq]; rfl, fun _ => congrArg (fun r => (f r).1) heq, nofun⟩
  | tx g =>
    have heq := htx rfl
    exact ⟨(g s.tx).2, rfl, by rw [heq]; rfl, nofun, fun _ => congrArg (fun t => (g t).1) heq⟩

/-- Settles O46: an operation reads as an operation of its agent does. -/
theorem operationsReadOnlyTheirOwnRecord : Obligations.OperationsReadOnlyTheirOwnRecord := by
  intro i s s' t t' hrx htx ht ht'
  obtain rfl := (exec_next_iff i s t).1 ht
  obtain rfl := (exec_next_iff i s' t').1 ht'
  exact (actsFor_execState i).congr s s' hrx htx

/-- The events of another agent are not among those of `g`. -/
theorem eventsOf_eq_nil {es : List Event} (h : ∀ e ∈ es, eventAgent e = a) (hne : a ≠ b) : eventsOf b es = [] := by
  refine List.filter_eq_nil_iff.2 fun e he => ?_
  rw [h e he, decide_eq_true_iff]
  exact hne

theorem eventsOf_append (c : Agent) (es fs : List Event) : eventsOf c (es ++ fs) = eventsOf c es ++ eventsOf c fs :=
  List.filter_append ..

/-- Each agent sees the events of two different agents in the same order, whichever came first. -/
theorem eventsOf_append_comm {es fs : List Event} (hes : ∀ e ∈ es, eventAgent e = a) (hfs : ∀ e ∈ fs, eventAgent e = b)
    (hne : a ≠ b) (c : Agent) (es₀ : List Event) : eventsOf c (es₀ ++ es ++ fs) = eventsOf c (es₀ ++ fs ++ es) := by
  simp only [eventsOf_append]
  by_cases hc : a = c
  · rw [eventsOf_eq_nil hfs (hc ▸ hne.symm), List.append_nil, List.append_nil]
  · rw [eventsOf_eq_nil hes hc, List.append_nil, List.append_nil]

/-- Operations of two agents, in either order: the same records and queue, and the same events but for the order
between the agents. -/
theorem ActsFor.commute (h : ActsFor a f) (h' : ActsFor b g) (hne : a ≠ b) (s : State) :
    (g (f s)).rx = (f (g s)).rx ∧ (g (f s)).tx = (f (g s)).tx ∧ (g (f s)).input = (f (g s)).input ∧
      ∀ c, eventsOf c (g (f s)).events = eventsOf c (f (g s)).events := by
  cases h with
  | fn es hes =>
    cases h' with
    | fn => exact absurd rfl hne
    | rx _ hf => exact ⟨rfl, rfl, rfl, fun c => eventsOf_append_comm hes (hf _) hne c _⟩
    | tx _ hg => exact ⟨rfl, rfl, rfl, fun c => eventsOf_append_comm hes (hg _) hne c _⟩
  | rx _ hf =>
    cases h' with
    | fn es hes => exact ⟨rfl, rfl, rfl, fun c => eventsOf_append_comm (hf _) hes hne c _⟩
    | rx => exact absurd rfl hne
    | tx _ hg => exact ⟨rfl, rfl, rfl, fun c => eventsOf_append_comm (hf _) (hg _) hne c _⟩
  | tx _ hg =>
    cases h' with
    | fn es hes => exact ⟨rfl, rfl, rfl, fun c => eventsOf_append_comm (hg _) hes hne c _⟩
    | rx _ hf => exact ⟨rfl, rfl, rfl, fun c => eventsOf_append_comm (hg _) (hf _) hne c _⟩
    | tx => exact absurd rfl hne

/-- Settles O47: two operations of different agents act on different records. -/
theorem operationsOfDifferentAgentsCommute : Obligations.OperationsOfDifferentAgentsCommute := by
  intro i j s a ab b ba hne ha hab hb hba
  obtain rfl := (exec_next_iff i s a).1 ha
  obtain rfl := (exec_next_iff j _ ab).1 hab
  obtain rfl := (exec_next_iff j s b).1 hb
  obtain rfl := (exec_next_iff i _ ba).1 hba
  exact (actsFor_execState i).commute (actsFor_execState j) hne s

end Agents

/-! ### Steps -/

section Steps
variable {s : State} {w : Cmd} {rest : List Cmd}

theorem step_of_no_input (h : s.input = []) : step s = .next s := by
  rw [step, nextCommand, h]
  rfl

theorem step_of_decode_ok {i : Instr} (h : s.input = w :: rest) (hd : decode w = .ok i) :
    step s = exec i { s with input := rest } := by
  simp only [step, nextCommand, h, hd]

theorem step_of_decode_error {e : DecodeError} (h : s.input = w :: rest) (hd : decode w = .error e) :
    step s = .next (reservedWord { s with input := rest }) := by
  simp only [step, nextCommand, h, hd]

end Steps

/-- Settles O43: the step by what stands in the queue. -/
theorem stepExecutesTheDecodedOperation : Obligations.StepExecutesTheDecodedOperation :=
  ⟨fun _ _ _ _ h hd => step_of_decode_ok h hd, fun _ h => step_of_no_input h⟩

/-- Settles O42: idle, decoded and reserved steps all answer a next state. -/
theorem everyStepAnswersANextState : Obligations.EveryStepAnswersANextState := by
  intro s
  cases hin : s.input with
  | nil => exact ⟨s, step_of_no_input hin⟩
  | cons w rest =>
    cases hd : decode w with
    | ok i => exact ⟨_, (step_of_decode_ok hin hd).trans (exec_eq_next i _)⟩
    | error e => exact ⟨_, step_of_decode_error hin hd⟩

/-- Settles O44: a word that is not well formed does not decode. -/
theorem reservedWordOnlyReportsIllegal : Obligations.ReservedWordOnlyReportsIllegal := by
  intro s w rest hin hwf
  cases hd : decode w with
  | ok i =>
    obtain ⟨-, hwf'⟩ := (decoderAgreesWithTheOpcodeMap w).1 i hd
    simp [hwf] at hwf'
  | error e => exact step_of_decode_error hin hd

/-! ### Resets -/

/-- Settles O17: RX.RESET, evaluated. -/
theorem rxResetGivesTheFreshSession : Obligations.RxResetGivesTheFreshSession := fun s => exec_eq_next .rxReset s

/-- Settles O48: the reset state, evaluated. -/
theorem resetLeavesTheStatedValues : Obligations.ResetLeavesTheStatedValues := ⟨rfl, rfl, rfl, rfl, rfl⟩

/-- Settles O49: RX.RESET and then TX.RESET on its result. -/
theorem bothResetsGiveThePowerOnState : Obligations.BothResetsGiveThePowerOnState := fun s =>
  ⟨_, rxResetGivesTheFreshSession s, by rw [txResetAbortsWithTheActuatorOff, List.append_assoc]; rfl⟩

/-! ### Invariants -/

/-- With no transmission and the level tracked, the light was last commanded off or never (44_modulator.md R181). -/
theorem offWhenIdle_of_tracks (s : State) (hinv : s.tx.Inv) (htrack : s.ActuatorTracksPrev) : s.OffWhenIdle := by
  obtain ⟨hidle, -⟩ := hinv
  intro hrun hon
  obtain ⟨hprev, -⟩ := hidle hrun
  rw [State.ActuatorTracksPrev, hprev, hon] at htrack
  cases htrack

/-- Settles O50: the reset values are those of RX.RESET and of an idle transmitter, and TX.ACT_OFF is the last
command. -/
theorem resetStateIsGood : Obligations.ResetStateIsGood :=
  have htx : State.reset.tx.Inv := inv_of_idle _ rfl rfl rfl
  ⟨⟨rxResetOp_inv State.reset.rx, htx⟩, rfl, offWhenIdle_of_tracks _ htx rfl⟩

/-- A property that does not speak of the queue is kept by every step if every operation and the reserved word keep
it. -/
theorem step_keeps {P : State → Prop} (hinput : ∀ s rest, P s → P { s with input := rest })
    (hexec : ∀ i s, P s → P (execState i s)) (hreserved : ∀ s, P s → P (reservedWord s)) {s t : State}
    (h : step s = .next t) (hs : P s) : P t := by
  rcases step_cases s t h with ⟨-, rfl⟩ | ⟨_, rest, i, -, -, rfl⟩ | ⟨_, rest, _, -, -, rfl⟩
  · exact hs
  · exact hexec i _ (hinput s rest hs)
  · exact hreserved _ (hinput s rest hs)

theorem execState_rx_inv (i : Instr) (s : State) (h : s.rx.Inv) : (execState i s).rx.Inv := by
  cases i with
  | rxReset => exact rxResetOp_inv s.rx
  | rxSample l => exact samplesKeepTheReceiverInvariantsForEveryConfig blockConfig l s.rx h
  | _ => rwa [execState_rx_of_agent_ne _ s (by simp [instrAgent])]

theorem execState_tx_inv (i : Instr) (s : State) (h : s.tx.Inv) : (execState i s).tx.Inv := by
  cases i with
  | txReset => exact txResetOp_inv s.tx
  | txSend p avail ok => exact txSendOp_inv blockConfig p avail ok s.tx h
  | txTick ok => exact txTickOp_inv blockConfig ok s.tx h
  | _ => rwa [execState_tx_of_agent_ne _ s (by simp [instrAgent])]

/-- Settles O51: every operation keeps the invariants of each record, and nothing else writes a record. -/
theorem everyStepKeepsTheInvariants : Obligations.EveryStepKeepsTheInvariants := fun _ _ hs h =>
  step_keeps (P := State.Inv) (fun _ _ h => h)
    (fun i s ⟨hrx, htx⟩ => ⟨execState_rx_inv i s hrx, execState_tx_inv i s htx⟩) (fun _ h => h) h hs

/-- Only the transmitter commands the actuator. -/
theorem commandLevel_of_agent_ne (e : Event) (h : eventAgent e ≠ .tx) : commandLevel e = none := by
  cases e <;> simp [eventAgent, commandLevel] at h ⊢

/-- Events of other agents command nothing. -/
theorem lastLevel_of_agent_ne {es : List Event} {a : Agent} (hes : ∀ e ∈ es, eventAgent e = a) (ha : a ≠ .tx) :
    lastLevel es = none := by
  have hnone : es.filterMap commandLevel = [] := 
    List.filterMap_eq_nil_iff.2 fun e he => commandLevel_of_agent_ne e ((hes e he).trans_ne ha)
  rw [lastLevel, hnone]
  rfl

/-- The level is still tracked after events that take it from the old `txPrev` to the new one. -/
theorem tracks_of_level {s t : State} {es : List Event} (hs : s.ActuatorTracksPrev) (hev : t.events = s.events ++ es)
    (hlevel : (lastLevel es).getD s.tx.txPrev = t.tx.txPrev) : t.ActuatorTracksPrev := by
  rw [State.ActuatorTracksPrev] at hs ⊢
  rw [hev, lastLevel_append, ← hlevel, ← hs]
  cases lastLevel es <;> rfl

theorem execState_tracks (i : Instr) (s : State) (hs : s.ActuatorTracksPrev) : (execState i s).ActuatorTracksPrev := by
  by_cases ha : instrAgent i = .tx
  · cases i with
    | txReset => exact tracks_of_level hs rfl (txResetOp_level s.tx)
    | txSend p avail ok => exact tracks_of_level hs rfl (txSendOp_level blockConfig p avail ok s.tx)
    | txTick ok => exact tracks_of_level hs rfl (txTickOp_level blockConfig ok s.tx)
    | _ => cases ha
  · obtain ⟨es, hev, hes⟩ := (actsFor_execState i).events s
    refine tracks_of_level hs hev ?_
    rw [lastLevel_of_agent_ne hes ha, execState_tx_of_agent_ne i s ha]
    rfl

/-- Settles O53: every operation keeps the transmitter's invariants and the level tracked, and the off guarantee follows
from the two. -/
theorem everyStepKeepsTheOffGuarantee : Obligations.EveryStepKeepsTheOffGuarantee := by
  intro s t hinv htrack h
  obtain ⟨hinv', htrack'⟩ := step_keeps (P := fun s => s.tx.Inv ∧ s.ActuatorTracksPrev) (fun _ _ h => h)
    (fun i s ⟨hinv, htrack⟩ => ⟨execState_tx_inv i s hinv, execState_tracks i s htrack⟩)
    (fun _ ⟨hinv, htrack⟩ => ⟨hinv, tracks_of_level htrack rfl rfl⟩) h ⟨hinv, htrack⟩
  exact ⟨hinv', htrack', offWhenIdle_of_tracks t hinv' htrack'⟩

end Sys2Proof.Machine
end

section
/-! The codec (40_codec.md): parity in closed form, the valid Codewords as exactly the encodings, and the result of DEC
for every word by its syndrome. -/

namespace Sys2Proof.Machine

/-- Settles O1: the constants, evaluated. -/
theorem wireContractConstantsAgree : Obligations.WireContractConstantsAgree := by
  unfold Obligations.WireContractConstantsAgree
  decide

/-! ### Parity in closed form -/

theorem parityTable_positions : parityTable.map Prod.fst = parityPos := by decide

/-- A check group is its parity position and the data positions of the closed form (40_codec.md R102). -/
theorem checkGroup_eq_cons : ∀ g ∈ parityTable,
    checkGroup g.1 = g.1 :: g.2.map (fun k => dataPos.getD k 0) ∧ ∀ k ∈ g.2, k < 24 := by decide

/-- The XOR over data positions is the XOR of the Payload elements that stand there. -/
theorem xorAt_map_dataPos (c : Codeword) (ks : List Nat) (hks : ∀ k ∈ ks, k < 24) :
    xorAt c (ks.map fun k => dataPos.getD k 0) = xorPayload (extractData c) ks := by
  induction ks with
  | nil => rfl
  | cons k ks ih =>
    obtain ⟨hk, hks⟩ := List.forall_mem_cons.1 hks
    exact congrArg₂ Bool.xor (payloadBit_extractData c k hk).symm (ih hks)

/-- The parity of a group is its parity bit and the Payload elements of the closed form. -/
theorem groupParity_eq_xorPayload (c : Codeword) (g : Nat × List Nat) (hg : g ∈ parityTable) :
    groupParity c g.1 = (codeBit c g.1).xor (xorPayload (extractData c) g.2) := by
  obtain ⟨hgroup, hks⟩ := checkGroup_eq_cons g hg
  rw [groupParity_eq_xorAt, hgroup, ← xorAt_map_dataPos c g.2 hks]
  rfl

/-- In a word all of whose groups are even, each parity bit has the closed form. -/
theorem codeBit_eq_xorPayload (c : Codeword) (hc : ∀ q ∈ parityPos, groupParity c q = false) (g : Nat × List Nat)
    (hg : g ∈ parityTable) : codeBit c g.1 = xorPayload (extractData c) g.2 := by
  have hpos : g.1 ∈ parityPos := parityTable_positions ▸ List.mem_map_of_mem hg
  have h := hc g.1 hpos
  rw [groupParity_eq_xorPayload c g hg] at h
  simpa using h

/-- Settles O3: an encoded Payload has even groups, and the Payload stands at its data positions. -/
theorem parityBitsHaveTheClosedForm : Obligations.ParityBitsHaveTheClosedForm := by
  intro p g hg
  rw [codeBit_eq_xorPayload _ (groupParity_encVal p) g hg, extractData_encVal]

/-! ### The valid Codewords -/

/-- Every position is a parity position or a data position (30_encoding.md R71). -/
theorem position_cases : ∀ i < 30, 1 ≤ i → i ∈ parityPos ∨ ∃ k < 24, dataPos.getD k 0 = i := by decide

/-- Two words with even groups and the same data bits are equal. -/
theorem eq_of_even_groups (c d : Codeword) (hc : ∀ q ∈ parityPos, groupParity c q = false)
    (hd : ∀ q ∈ parityPos, groupParity d q = false) (h : extractData c = extractData d) : c = d := by
  apply codeBit_ext
  intro i h1 h29
  rcases position_cases i (by omega) h1 with hi | ⟨k, hk, rfl⟩
  · obtain ⟨g, hg, rfl⟩ := List.mem_map.1 (parityTable_positions ▸ hi)
    rw [codeBit_eq_xorPayload c hc g hg, codeBit_eq_xorPayload d hd g hg, h]
  · rw [← payloadBit_extractData c k hk, ← payloadBit_extractData d k hk, h]

/-- A word with even groups is the encoding of its data bits. -/
theorem encVal_extractData (c : Codeword) (hc : ∀ q ∈ parityPos, groupParity c q = false) :
    encVal (extractData c) = c :=
  eq_of_even_groups _ _ (groupParity_encVal _) hc (extractData_encVal _)

/-- Settles O5: the data bits give the Payload back, and a valid Codeword is the encoding of its data bits. -/
theorem encodingsAreExactlyTheValidCodewords : Obligations.EncodingsAreExactlyTheValidCodewords := by
  refine ⟨fun p q h => ?_, fun c => (validCodeword_iff c).trans ⟨fun hc => ⟨_, encVal_extractData c hc⟩, ?_⟩⟩
  · rw [← extractData_encVal p, h, extractData_encVal]
  · rintro ⟨p, rfl⟩
    exact groupParity_encVal p

theorem extractData_xor (c d : Codeword) : extractData (c ^^^ d) = extractData c ^^^ extractData d := by
  apply BitVec.eq_of_getMsbD_eq
  intro k hk
  rw [BitVec.getMsbD_xor]
  exact (payloadBit_extractData _ k hk).trans ((codeBit_xor c d _).trans
    (congrArg₂ Bool.xor (payloadBit_extractData c k hk).symm (payloadBit_extractData d k hk).symm))

/-- Settles O4: the XOR of two encodings has even groups and the XOR of the two Payloads at its data positions. -/
theorem encodeIsXorLinear : Obligations.EncodeIsXorLinear := by
  intro p q
  have heven : ∀ r ∈ parityPos, groupParity (encVal p ^^^ encVal q) r = false := fun r hr => by
    rw [groupParity_xor, groupParity_encVal p r hr, groupParity_encVal q r hr, Bool.xor_false]
  rw [← encVal_extractData _ heven, extractData_xor, extractData_encVal, extractData_encVal]

/-! ### DEC by the syndrome -/

/-- The bits of a number below 32, XORed or added up: they do not overlap (40_codec.md R105). -/
theorem foldl_xor_eq_sum (f : Nat → Bool) :
    parityPos.foldl (fun e q => if f q then e ^^^ q else e) 0 = (parityPos.map fun q => q * (f q).toNat).sum := by
  have h : ∀ a b c d e : Bool,
      List.foldl (fun e (q : Nat × Bool) => if q.2 then e ^^^ q.1 else e) 0 [(1, a), (2, b), (4, c), (8, d), (16, e)] =
        1 * a.toNat + (2 * b.toNat + (4 * c.toNat + (8 * d.toNat + (16 * e.toNat + 0)))) := by decide
  exact h (f 1) (f 2) (f 4) (f 8) (f 16)

theorem errorPosition_eq_syndromeSum (c : Codeword) : errorPosition c = syndromeSum c := by
  rw [errorPosition, foldl_xor_eq_sum, syndromeSum, checkGroup_eq_table, List.map_map]
  simp only [Function.comp_def, groupParity_eq_xorAt]

/-- Settles O9: the syndrome is the sum of the odd groups, and DEC flips the position it names, if it is one. -/
theorem decodeResultFollowsTheSyndrome : Obligations.DecodeResultFollowsTheSyndrome := by
  intro c s
  refine ⟨(decVal c).1, (decVal c).2, exec_eq_next (.dec c) s, ?_⟩
  rw [← errorPosition_eq_syndromeSum]
  refine ⟨fun h1 h29 => ?corrected, fun hout => ?kept⟩
  case corrected =>
    rw [decVal_of_corrected c h1 h29]
    refine ⟨rfl, fun k hk => ?_⟩
    obtain ⟨hk1, hk29⟩ := dataPos_range k hk
    rw [payloadBit_extractData _ k hk, codeBit_xor, codeBit_posMask _ _ h1 h29 hk1 hk29]
  case kept =>
    have hflag : correctedFlag (errorPosition c) = false := by
      rw [Bool.eq_false_iff, Ne, correctedFlag_iff]
      omega
    rw [decVal_of_not_corrected c hflag]
    exact ⟨rfl, payloadBit_extractData c⟩

/-! ### Two errors -/

/-- Whether a number has the bit of a parity position, under XOR (30_encoding.md R72). -/
theorem xor_and_parityPos_ne_zero (a b q : Nat) (hq : q ∈ parityPos) :
    decide ((a ^^^ b) &&& q ≠ 0) = (decide (a &&& q ≠ 0)).xor (decide (b &&& q ≠ 0)) := by
  have hpow : ∀ q ∈ parityPos, ∃ k < 5, q = 2 ^ k := by decide
  obtain ⟨k, -, rfl⟩ := hpow q hq
  have hbit : ∀ n : Nat, decide (n &&& 2 ^ k ≠ 0) = n.testBit k := fun n => by
    rw [Nat.and_two_pow]
    cases n.testBit k <;> simp
  rw [hbit, hbit, hbit, Nat.testBit_xor]

section TwoErrors
variable (p : Payload) (a b : Nat) (ha : 1 ≤ a) (hab : a < b) (hb : b ≤ 29)
include ha hab hb

theorem groupParity_two_errors (q : Nat) (hq : q ∈ parityPos) :
    groupParity (encVal p ^^^ posMask a ^^^ posMask b) q = decide ((a ^^^ b) &&& q ≠ 0) := by
  rw [groupParity_xor, groupParity_xor, groupParity_encVal p q hq, groupParity_posMask a q ha (by omega) hq,
    groupParity_posMask b q (by omega) hb hq, Bool.false_xor, xor_and_parityPos_ne_zero a b q hq]

/-- The syndrome of two errors is the XOR of their positions (40_codec.md §4). -/
theorem errorPosition_two_errors : errorPosition (encVal p ^^^ posMask a ^^^ posMask b) = a ^^^ b :=
  errorPosition_eq_of_groupParity _ _ (Nat.xor_lt_two_pow (n := 5) (by omega) (by omega))
    (groupParity_two_errors p a b ha hab hb)

/-- Two errors whose XOR is no position do not both fall on parity bits, so the data bits as received are wrong. -/
theorem extractData_two_errors_ne (hout : 30 ≤ a ^^^ b) :
    extractData (encVal p ^^^ posMask a ^^^ posMask b) ≠ p := by
  intro h
  have hzero : extractData (posMask a ^^^ posMask b) = 0#24 := by
    rw [BitVec.xor_assoc, extractData_xor, extractData_encVal] at h
    simpa using h
  have hparity : ∀ i < 30, 1 ≤ i → codeBit (posMask a ^^^ posMask b) i = true → i ∈ parityPos := by
    intro i hi h1 hwrong
    refine (position_cases i hi h1).resolve_right ?_
    rintro ⟨k, hk, rfl⟩
    rw [← payloadBit_extractData _ k hk, hzero] at hwrong
    simp [payloadBit] at hwrong
  have hbit : ∀ i, 1 ≤ i → i ≤ 29 → codeBit (posMask a ^^^ posMask b) i = (decide (i = a)).xor (decide (i = b)) :=
    fun i h1 h29 => by
      rw [codeBit_xor, codeBit_posMask a i ha (by omega) h1 h29, codeBit_posMask b i (by omega) hb h1 h29]
  have hpa := hparity a (by omega) ha (by simp [hbit a ha (by omega), hab.ne])
  have hpb := hparity b (by omega) (by omega) (by simp [hbit b (by omega) hb, hab.ne'])
  have hle : ∀ x ∈ parityPos, ∀ y ∈ parityPos, x ^^^ y ≤ 29 := by decide
  exact absurd (hle a hpa b hpb) (by omega)

/-- With the position the syndrome names flipped, the groups are even, so the data bits are those sent only if the whole
word is; but position `a` is wrong. -/
theorem extractData_two_errors_corrected_ne (hin : a ^^^ b ≤ 29) :
    extractData (encVal p ^^^ posMask a ^^^ posMask b ^^^ posMask (a ^^^ b)) ≠ p := by
  intro h
  have hpos : 1 ≤ a ^^^ b := Nat.one_le_iff_ne_zero.2 (Nat.xor_ne_zero_iff.2 hab.ne)
  have heven : ∀ q ∈ parityPos,
      groupParity (encVal p ^^^ posMask a ^^^ posMask b ^^^ posMask (a ^^^ b)) q = false := fun q hq => by
    rw [groupParity_xor, groupParity_two_errors p a b ha hab hb q hq, groupParity_posMask _ q hpos hin hq,
      Bool.xor_self]
  have hword := congrArg (codeBit · a) (encVal_extractData _ heven)
  rw [h] at hword
  simp only [codeBit_xor, codeBit_posMask a a ha (by omega) ha (by omega),
    codeBit_posMask b a (by omega) hb ha (by omega), codeBit_posMask _ a hpos hin ha (by omega)] at hword
  have hne : a ≠ a ^^^ b := fun h => by
    have hzero := congrArg (a ^^^ ·) h
    rw [Nat.xor_self, Nat.xor_xor_cancel_left] at hzero
    omega
  simp [hab.ne, hne] at hword

end TwoErrors

/-- Settles O8: the syndrome of two errors is the XOR of their positions, never 0, and the word sent is not restored
whether that names a position or not. -/
theorem twoErrorsNeverDecodeToTheSentPayload : Obligations.TwoErrorsNeverDecodeToTheSentPayload := by
  intro p a b ha hab hb
  have hpos : 1 ≤ a ^^^ b := Nat.one_le_iff_ne_zero.2 (Nat.xor_ne_zero_iff.2 hab.ne)
  have he := errorPosition_two_errors p a b ha hab hb
  change (decVal (encVal p ^^^ posMask a ^^^ posMask b)).1 ≠ p ∧
    (decVal (encVal p ^^^ posMask a ^^^ posMask b)).2 = decide (a ^^^ b ≤ 29)
  by_cases hin : a ^^^ b ≤ 29
  · rw [decVal_of_corrected _ (by rwa [he]) (by rwa [he]), he, decide_eq_true hin]
    exact ⟨extractData_two_errors_corrected_ne p a b ha hab hb hin, rfl⟩
  · have hflag : correctedFlag (errorPosition (encVal p ^^^ posMask a ^^^ posMask b)) = false := by
      rw [Bool.eq_false_iff, Ne, correctedFlag_iff, he]
      exact fun h => hin h.2
    rw [decVal_of_not_corrected _ hflag, decide_eq_false hin]
    exact ⟨extractData_two_errors_ne p a b ha hab hb (by omega), rfl⟩

end Sys2Proof.Machine
end

section
/-! Binarization (41_binarize_majority.md R120, R121): no sample stands for 17/20 exactly, so the integer threshold, the
strict and the non-strict comparison agree. -/

namespace Sys2Proof.Machine

/-- `2^LUM_W - 1` is odd, so 17 times it is no multiple of 20. -/
theorem odd_mul_ne (w s : Nat) (hw : 0 < w) : 17 * (2 ^ w - 1) ≠ 20 * s := by
  obtain ⟨n, rfl⟩ := Nat.exists_eq_succ_of_ne_zero hw.ne'
  have hpow : 0 < 2 ^ n := Nat.two_pow_pos n
  rw [Nat.succ_eq_add_one, Nat.pow_succ]
  omega

/-- Strict or not, the comparison of the real value is the strict one (41_binarize_majority.md §1). -/
theorem realBright_eq_strict (cfg : Config) (s : Nat) (hw : 0 < cfg.lumW) :
    realBright cfg s = decide (17 * (2 ^ cfg.lumW - 1) < 20 * s) := by
  rw [realBright]
  split
  next => rfl
  next => exact decide_eq_decide.2 (odd_mul_ne cfg.lumW s hw).le_iff_lt

/-- Settles O59: both comparisons are the strict one. -/
theorem strictnessIsUnobservableAtEveryWidth : Obligations.StrictnessIsUnobservableAtEveryWidth := fun cfg hw s =>
  (realBright_eq_strict { cfg with threshStrict := true } s hw).trans
    (realBright_eq_strict { cfg with threshStrict := false } s hw).symm

/-- At eight bits the first sample above 17/20 is 217 (41_binarize_majority.md R120). -/
theorem threshold_eight (n : Nat) : 17 * (2 ^ 8 - 1) < 20 * n ↔ 217 ≤ n := by omega

/-- Settles O10: the block's threshold is the first sample above 17/20. -/
theorem binIsBrightAboveTheThreshold : Obligations.BinIsBrightAboveTheThreshold := by
  intro l s
  rw [show decide (17 * 255 < 20 * l.toNat) = binarize blockConfig l from decide_eq_decide.2 (threshold_eight _)]
  exact exec_eq_next (.bin l) s

/-- Settles O11: coherent parameters binarize by the comparison of the real value, whose threshold is 217. -/
theorem strictnessIsUnobservableAtEightBits : Obligations.StrictnessIsUnobservableAtEightBits := by
  intro cfg hw hc l
  have hthreshold : 17 * (2 ^ cfg.lumW - 1) < 20 * l.toNat ↔ 217 ≤ l.toNat := by
    simpa only [hw] using threshold_eight l.toNat
  rw [binarize_of_coherent cfg l hc, realBright_eq_strict cfg _ (by omega)]
  exact decide_eq_decide.2 hthreshold

/-- The integer comparison is that of the real value `s / d` with 17/20. -/
theorem lt_div_iff_mul_lt_mul (s d : Nat) (hd : 0 < d) : (17 : ℚ) / 20 < (s : ℚ) / (d : ℚ) ↔ 17 * d < 20 * s := by
  rw [div_lt_div_iff₀ (by norm_num) (by exact_mod_cast hd), mul_comm (s : ℚ)]
  norm_cast

theorem le_div_iff_mul_le_mul (s d : Nat) (hd : 0 < d) : (17 : ℚ) / 20 ≤ (s : ℚ) / (d : ℚ) ↔ 17 * d ≤ 20 * s := by
  rw [div_le_div_iff₀ (by norm_num) (by exact_mod_cast hd), mul_comm (s : ℚ)]
  norm_cast

/-- Settles O58: coherent parameters binarize by the integer form of the comparison of the real value. -/
theorem binarizationComparesTheRealValue : Obligations.BinarizationComparesTheRealValue := by
  intro cfg hw hc l
  have hpos : 0 < 2 ^ cfg.lumW - 1 := Nat.sub_pos_of_lt (Nat.one_lt_two_pow hw.ne')
  have hcast : (2 : ℚ) ^ cfg.lumW - 1 = ((2 ^ cfg.lumW - 1 : ℕ) : ℚ) := by
    rw [Nat.cast_pred (Nat.two_pow_pos _)]
    norm_cast
  rw [binarize_of_coherent cfg l hc, realBright, hcast]
  split
  next => rw [decide_eq_true_iff, lt_div_iff_mul_lt_mul _ _ hpos]
  next => rw [decide_eq_true_iff, le_div_iff_mul_le_mul _ _ hpos]

end Sys2Proof.Machine
end

section
/-! HEX2PL (44_modulator.md R170): the loop over the characters, and the digits of its value. -/

namespace Sys2Proof.Machine

/-- The digit tests accept the characters of the table, with their values (30_encoding.md R76). -/
theorem hexDigit_eq_some_iff (c : CharCode) (d : Nat) : hexDigit c = some d ↔ (c.toNat, d) ∈ hexTable := by
  have hdecimal : ∀ n < 10, (0x30 + n, n) ∈ hexTable := by decide
  have hletter : ∀ n < 6, (0x41 + n, n + 10) ∈ hexTable ∧ (0x61 + n, n + 10) ∈ hexTable := by decide
  have hrange : ∀ e ∈ hexTable, (0x30 ≤ e.1 ∧ e.1 ≤ 0x39 ∧ e.2 = e.1 - 0x30) ∨
      (0x41 ≤ e.1 ∧ e.1 ≤ 0x46 ∧ e.2 = e.1 - 0x41 + 10) ∨ (0x61 ≤ e.1 ∧ e.1 ≤ 0x66 ∧ e.2 = e.1 - 0x61 + 10) := by decide
  constructor
  · intro h
    simp only [hexDigit] at h
    split_ifs at h with h0 hA ha <;> obtain rfl := Option.some.inj h
    · simpa [Nat.add_sub_cancel' h0.1] using hdecimal (c.toNat - 0x30) (by omega)
    · simpa [Nat.add_sub_cancel' hA.1] using (hletter (c.toNat - 0x41) (by omega)).1
    · simpa [Nat.add_sub_cancel' ha.1] using (hletter (c.toNat - 0x61) (by omega)).2
  · intro h
    simp only [hexDigit]
    rcases hrange _ h with ⟨hlo, hhi, hd⟩ | ⟨hlo, hhi, hd⟩ | ⟨hlo, hhi, hd⟩ <;> dsimp only at hlo hhi hd
    · rw [if_pos ⟨hlo, hhi⟩, hd]
    · rw [if_neg (by omega), if_pos ⟨hlo, hhi⟩, hd]
    · rw [if_neg (by omega), if_neg (by omega), if_pos ⟨hlo, hhi⟩, hd]

theorem hexDigit_isSome_iff (c : CharCode) : (hexDigit c).isSome = true ↔ ∃ d, (c.toNat, d) ∈ hexTable := by
  simp only [Option.isSome_iff_exists, hexDigit_eq_some_iff]

/-- The value of a character, 0 for one that is no digit. -/
def digitValue (c : CharCode) : Nat := (hexDigit c).getD 0

theorem digitValue_eq (c : CharCode) (d : Nat) (h : (c.toNat, d) ∈ hexTable) : digitValue c = d := by
  rw [digitValue, (hexDigit_eq_some_iff c d).2 h]
  rfl

theorem digitValue_lt (c : CharCode) : digitValue c < 16 := by
  rw [digitValue]
  cases h : hexDigit c with
  | none => decide
  | some d =>
    have hlt : ∀ e ∈ hexTable, e.2 < 16 := by decide
    exact hlt _ ((hexDigit_eq_some_iff c d).1 h)

/-- The loop gives the positional value of the digits, or nothing if some character is no digit. -/
theorem hexLoop_eq (cs : List CharCode) (v : Nat) :
    hexLoop cs v =
      if ∀ c ∈ cs, (hexDigit c).isSome = true then some (cs.foldl (fun v c => v * 16 + digitValue c) v) else none := by
  induction cs generalizing v with
  | nil => rfl
  | cons c cs ih =>
    rw [hexLoop]
    cases hd : hexDigit c with
    | none => simp [hd]
    | some d => simp [ih, hd, digitValue]

/-- Nibble `k` of the positional value of six digits is digit `k`. -/
theorem nibble_foldl (d : Nat → Nat) (hd : ∀ k, d k < 16) (k : Nat) (hk : k < 6) :
    ((BitVec.ofNat 24 ((List.range 6).foldl (fun v k => v * 16 + d k) 0)).extractLsb' (20 - 4 * k) 4).toNat = d k := by
  have h0 := hd 0
  have h1 := hd 1
  have h2 := hd 2
  have h3 := hd 3
  have h4 := hd 4
  have h5 := hd 5
  simp only [BitVec.extractLsb'_toNat, BitVec.toNat_ofNat, Nat.shiftRight_eq_div_pow, List.range_succ, List.range_zero,
    List.nil_append, List.cons_append, List.foldl_cons, List.foldl_nil]
  interval_cases k <;> omega

/-- The value HEX2PL reads: the positional value of six digits (44_modulator.md R170). -/
def sixDigits (ch : HexChars) : Nat := (List.range 6).foldl (fun v k => v * 16 + digitValue (hexChar ch k)) 0

/-- A string HEX2PL accepts: six characters of the 22 hexadecimal ones (44_modulator.md R170). -/
def HexAccepted (len : BitVec 4) (ch : HexChars) : Prop :=
  len.toNat = 6 ∧ ∀ k < 6, ∃ d, ((hexChar ch k).toNat, d) ∈ hexTable

theorem forall_hexCharList_iff (ch : HexChars) :
    (∀ c ∈ hexCharList ch, (hexDigit c).isSome = true) ↔ ∀ k < 6, ∃ d, ((hexChar ch k).toNat, d) ∈ hexTable := by
  simp only [hexCharList, List.forall_mem_map, List.mem_range, hexDigit_isSome_iff]

theorem hexResult_of_accepted {len : BitVec 4} {ch : HexChars} (h : HexAccepted len ch) :
    hexResult len ch = .resHex true (BitVec.ofNat 24 (sixDigits ch)) := by
  obtain ⟨hlen, hall⟩ := h
  have hvalue : hexValue len ch = some (sixDigits ch) := by
    rw [hexValue, if_pos hlen, hexLoop_eq, if_pos ((forall_hexCharList_iff ch).2 hall), hexCharList, List.foldl_map]
    rfl
  rw [hexResult, hvalue]

theorem hexResult_of_not_accepted {len : BitVec 4} {ch : HexChars} (h : ¬ HexAccepted len ch) :
    hexResult len ch = .resHex false 0#24 := by
  have hvalue : hexValue len ch = none := by
    rw [hexValue]
    split
    next hlen =>
      rw [hexLoop_eq, if_neg]
      exact fun hall => h ⟨hlen, (forall_hexCharList_iff ch).1 hall⟩
    next => rfl
  rw [hexResult, hvalue]

/-- Settles O16: an accepted string has the value of its six digits, any other is invalid. -/
theorem hexStringGivesItsSixDigits : Obligations.HexStringGivesItsSixDigits := by
  intro len ch s
  have hexec := exec_eq_next (.hex2pl len ch) s
  by_cases h : HexAccepted len ch
  · refine ⟨true, BitVec.ofNat 24 (sixDigits ch), ?_, iff_of_true rfl h, fun _ k d hk hd => ?_, nofun⟩
    · rw [hexec, execState, hexResult_of_accepted h]
      rfl
    · exact (nibble_foldl _ (fun _ => digitValue_lt _) k hk).trans (digitValue_eq (hexChar ch k) d hd)
  · refine ⟨false, 0#24, ?_, iff_of_false Bool.false_ne_true h, nofun, fun _ => rfl⟩
    rw [hexec, execState, hexResult_of_not_accepted h]
    rfl

end Sys2Proof.Machine
end

section
/-! RX.SAMPLE (43_demodulator.md R151 to R156), one equation per case. -/

namespace Sys2Proof.Machine

/-- RX.SAMPLE, by what it does to the receiver state. -/
theorem exec_rxSample_of_op {l : Lum} {s : State} {r : RxState} {es : List Event}
    (h : rxSampleOp blockConfig l s.rx = (r, es)) :
    exec (.rxSample l) s = .next { s with rx := r, events := s.events ++ es } := by
  rw [exec_eq_next, execState, runRx, h]
  rfl

section Sample
variable (cfg : Config) (l : cfg.Sample) (r : RxState)

theorem rxSampleOp_settled (hr : r.rxState = .initializing) (h : r.initCount = 29) :
    rxSampleOp cfg l r = ({ r with rxState := .searching, initCount := 30 }, [.rxStatus 1#2]) := by
  rw [rxSampleOp_initializing cfg l r hr]
  rcases sampleInitializing_cases r with ⟨-, e⟩ | ⟨h', -⟩
  · exact e
  · exact absurd h h'

theorem rxSampleOp_discarded (hr : r.rxState = .initializing) (h : r.initCount ≠ 29) :
    rxSampleOp cfg l r = ({ r with initCount := r.initCount + 1 }, []) := by
  rw [rxSampleOp_initializing cfg l r hr]
  rcases sampleInitializing_cases r with ⟨h', -⟩ | ⟨-, e⟩
  · exact absurd h' h
  · exact e

theorem rxSampleOp_lock (hr : r.rxState = .searching) (h : 0 < r.hist.slot1) :
    rxSampleOp cfg l r =
      ({ r with
          rxState := .receiving, startBuf := [], hist := Hist.zero,
          obsBuf := lastN (syncBuffer r.startBuf (binarize cfg l)) (carryCount cfg (syncHist (binarize cfg l) r)) },
        [.rxStatus 2#2]) := by
  rw [rxSampleOp_searching cfg l r hr]
  rcases sampleSearching_cases cfg (binarize cfg l) r with ⟨-, e⟩ | ⟨h', -⟩
  · exact e
  · omega

theorem rxSampleOp_slide (hr : r.rxState = .searching) (h : r.hist.slot1 = 0) :
    rxSampleOp cfg l r =
      ({ r with startBuf := syncBuffer r.startBuf (binarize cfg l), hist := syncHist (binarize cfg l) r }, []) := by
  rw [rxSampleOp_searching cfg l r hr]
  rcases sampleSearching_cases cfg (binarize cfg l) r with ⟨h', -⟩ | ⟨-, e⟩
  · omega
  · exact e

theorem rxSampleOp_overrun (hr : r.rxState = .receiving) (h : 3 ≤ r.obsBuf.length) :
    rxSampleOp cfg l r = ({ r with rxState := .searching, obsBuf := [], bitBuf := [] }, [.rxStatus 1#2]) := by
  rw [rxSampleOp_receiving cfg l r hr]
  rcases sampleReceiving_cases (binarize cfg l) r with ⟨-, e⟩ | ⟨h', -⟩ | ⟨h', -⟩ | ⟨h', -⟩
  · exact e
  all_goals omega

theorem rxSampleOp_append (hr : r.rxState = .receiving) (h : r.obsBuf.length ≤ 1) :
    rxSampleOp cfg l r = ({ r with obsBuf := r.obsBuf ++ [binarize cfg l] }, []) := by
  rw [rxSampleOp_receiving cfg l r hr]
  rcases sampleReceiving_cases (binarize cfg l) r with ⟨h', -⟩ | ⟨-, e⟩ | ⟨h', -⟩ | ⟨h', -⟩
  · omega
  · exact e
  all_goals omega

theorem rxSampleOp_bit (hr : r.rxState = .receiving) (h : r.obsBuf.length = 2) (hb : r.bitBuf.length ≠ 28) :
    rxSampleOp cfg l r =
      ({ r with obsBuf := [], bitBuf := r.bitBuf ++ [maj3Val (r.obsBuf ++ [binarize cfg l])] },
        [.rxProgress (BitVec.ofNat 5 (r.bitBuf.length + 1))]) := by
  rw [rxSampleOp_receiving cfg l r hr]
  rcases sampleReceiving_cases (binarize cfg l) r with ⟨h', -⟩ | ⟨h', -⟩ | ⟨-, -, e⟩ | ⟨-, h', -⟩
  · omega
  · omega
  · exact e
  · omega

theorem rxSampleOp_frame (hr : r.rxState = .receiving) (h : r.obsBuf.length = 2) (hb : r.bitBuf.length = 28)
    (c : Codeword) (hc : c = pack 29 (r.bitBuf ++ [maj3Val (r.obsBuf ++ [binarize cfg l])])) :
    rxSampleOp cfg l r =
      ({ r with rxState := .searching, obsBuf := [], bitBuf := [], rxCorrected := (decVal c).2 },
        [.rxProgress 29#5, .rxPayload (decVal c).1 (decVal c).2, .rxStatus 1#2]) := by
  subst hc
  rw [rxSampleOp_receiving cfg l r hr]
  rcases sampleReceiving_cases (binarize cfg l) r with ⟨h', -⟩ | ⟨h', -⟩ | ⟨-, h', -⟩ | ⟨-, -, e⟩
  · omega
  · omega
  · omega
  · exact e

end Sample

/-- Settles O18: the two cases of a sample in INITIALIZING. -/
theorem sampleWhileInitializingIsDiscarded : Obligations.SampleWhileInitializingIsDiscarded := by
  intro l s hr
  split
  next h => exact exec_rxSample_of_op (rxSampleOp_settled blockConfig l s.rx hr (by omega))
  next h => rw [exec_rxSample_of_op (rxSampleOp_discarded blockConfig l s.rx hr (by omega)), List.append_nil]

/-- Settles O24: the sample of an incomplete group. -/
theorem sampleOfAnIncompleteGroupIsAppended : Obligations.SampleOfAnIncompleteGroupIsAppended := by
  intro l s hr hobs
  rw [exec_rxSample_of_op (rxSampleOp_append blockConfig l s.rx hr hobs), List.append_nil]
  rfl

/-- Settles O25: the sample of a complete group, whose vote is the disjunction of the pairs. -/
theorem sampleCompletingAGroupCollectsItsMajority : Obligations.SampleCompletingAGroupCollectsItsMajority := by
  rintro l s x y hr hobs hbits _ rfl
  rw [exec_rxSample_of_op (rxSampleOp_bit blockConfig l s.rx hr (by rw [hobs]; rfl) hbits.ne), hobs, ← maj3Val_three]
  rfl

/-- Settles O26: the sample of the last group; the word decoded is the one whose positions are the collected bits. -/
theorem sampleCompletingAFrameReportsItsPayload : Obligations.SampleCompletingAFrameReportsItsPayload := by
  rintro l s x y c hr hobs hbits _ rfl hc
  rw [← maj3Val_three] at hc
  refine exec_rxSample_of_op (rxSampleOp_frame blockConfig l s.rx hr (by rw [hobs]; rfl) hbits c ?_)
  refine codeBit_ext fun i h1 h29 => ?_
  rw [hc i h1 h29, codeBit, pack_getMsbD 29 _ (by simp [hbits]), hobs]
  rfl

/-- Settles O27: the sample that finds a full group in the buffer. -/
theorem overrunDiscardsTheFrame : Obligations.OverrunDiscardsTheFrame := fun l s hr hobs =>
  exec_rxSample_of_op (rxSampleOp_overrun blockConfig l s.rx hr hobs)

/-! ### The search -/

/-- Settles O19: the sliding case, with the score of the last 24 observations. -/
theorem sampleWithoutLockSlidesTheWindow : Obligations.SampleWithoutLockSlidesTheWindow := by
  rintro l s hr hslot _ _ rfl rfl
  rw [exec_rxSample_of_op (rxSampleOp_slide blockConfig l s.rx hr hslot), List.append_nil, syncHist_eq, syncBuffer_eq,
    hslot]
  rfl

/-- With the tie-break of the block the index chosen is the first one of the highest score (42_synchronizer.md R138). -/
theorem maxIndex_lowest_eq (h : Hist) (j : Nat) (hj : j ≤ 2)
    (hlt : ∀ i, i < j → [h.slot0, h.slot1, h.slot2].getD i 0 < [h.slot0, h.slot1, h.slot2].getD j 0)
    (hle : ∀ i, i ≤ 2 → [h.slot0, h.slot1, h.slot2].getD i 0 ≤ [h.slot0, h.slot1, h.slot2].getD j 0) :
    (maxIndex .lowest h).val = j := by
  obtain ⟨a, b, c⟩ := h
  obtain rfl | rfl | rfl : j = 0 ∨ j = 1 ∨ j = 2 := by omega
  · have hb : b ≤ a := hle 1 (by decide)
    have hc : c ≤ a := hle 2 (by decide)
    have hmax : a = max a (max b c) := by omega
    exact congrArg Fin.val (if_pos hmax)
  · have ha : a < b := hlt 0 (by decide)
    have hc : c ≤ b := hle 2 (by decide)
    have hne : a ≠ max a (max b c) := by omega
    have hmax : b = max a (max b c) := by omega
    exact congrArg Fin.val ((if_neg hne).trans (if_pos hmax))
  · have ha : a < c := hlt 0 (by decide)
    have hb : b < c := hlt 1 (by decide)
    have hne₀ : a ≠ max a (max b c) := by omega
    have hne₁ : b ≠ max a (max b c) := by omega
    exact congrArg Fin.val ((if_neg hne₀).trans (if_neg hne₁))

/-- The block carries `2 - j` observations for the index `j` (42_synchronizer.md R139). -/
theorem carryCount_blockConfig (h : Hist) (j : Nat) (hj : (maxIndex .lowest h).val = j) :
    carryCount blockConfig h = 2 - j := by
  have hsub : ∀ k : Fin 3, (carryDefault k).val = 2 - k.val := by decide
  rw [← hj]
  exact hsub _

/-- Settles O20: the lock, with the carry of the first highest score. -/
theorem lockCarriesByTheFirstHighestScore : Obligations.LockCarriesByTheFirstHighestScore := by
  rintro l s hr hslot _ _ j rfl rfl hj hlt hle
  have hcarry : carryCount blockConfig (syncHist (decide (217 ≤ l.toNat)) s.rx) = 2 - j := by
    refine carryCount_blockConfig _ j ?_
    rw [syncHist_eq, syncBuffer_eq]
    exact maxIndex_lowest_eq _ j hj hlt hle
  rw [exec_rxSample_of_op (rxSampleOp_lock blockConfig l s.rx hr hslot), binarize_blockConfig, hcarry, syncBuffer_eq]
  rfl

/-- Two samples with a score in slot 2: the first moves it to slot 1 and slides, the second locks (42_synchronizer.md
§4). -/
theorem runSamples_lock_at_two (cfg : Config) (l₁ l₂ : cfg.Sample) (r r₁ : RxState) (hr : r.rxState = .searching)
    (h1 : r.hist.slot1 = 0) (h2 : 0 < r.hist.slot2)
    (hr₁ : r₁ = { r with startBuf := syncBuffer r.startBuf (binarize cfg l₁), hist := syncHist (binarize cfg l₁) r }) :
    runSamples cfg [l₁] r = (r₁, []) ∧
    runSamples cfg [l₁, l₂] r =
      ({ r with
          rxState := .receiving, startBuf := [], hist := Hist.zero,
          obsBuf := lastN (syncBuffer r₁.startBuf (binarize cfg l₂)) (carryCount cfg (syncHist (binarize cfg l₂) r₁)) },
        [.rxStatus 2#2]) := by
  subst hr₁
  have hslide := rxSampleOp_slide cfg l₁ r hr h1
  have hlock := rxSampleOp_lock cfg l₂ { r with
    startBuf := syncBuffer r.startBuf (binarize cfg l₁), hist := syncHist (binarize cfg l₁) r } hr
    (by rw [syncHist_eq]; exact h2)
  constructor
  · rw [runSamples_cons, hslide]
    rfl
  · rw [runSamples_cons, hslide, runSamples_cons, hlock]
    rfl

/-- Settles O21: the two samples slide and lock, and a lock carries at most two observations. -/
theorem lockComesTwoSamplesAfterTheFirstScore : Obligations.LockComesTwoSamplesAfterTheFirstScore := by
  intro cfg r a l₁ l₂ hr hh ha
  obtain ⟨hslide, hlock⟩ := runSamples_lock_at_two cfg l₁ l₂ r _ hr (by rw [hh]) (by rwa [hh]) rfl
  rw [hslide, hlock]
  exact ⟨hr, rfl, rfl, rfl, rfl, rfl, (lastN_length _ _).trans_le ((Nat.min_le_left _ _).trans (carryCount_le cfg _))⟩

/-- A full start buffer drops its oldest observation (42_synchronizer.md R136). -/
theorem syncBuffer_full (buf : List Bool) (o : Bool) (h : buf.length = 24) : syncBuffer buf o = buf.drop 1 ++ [o] := by
  rw [syncBuffer_eq, h]
  exact List.drop_append_of_le_length (by omega)

/-- With a full start buffer the score pushed is that of the window (42_synchronizer.md R135). -/
theorem syncHist_full (o : Bool) (r : RxState) (h : r.startBuf.length = 24) :
    syncHist o r = ⟨r.hist.slot1, r.hist.slot2, scoreVal (syncBuffer r.startBuf o)⟩ := by
  rw [syncHist_eq, if_neg (by omega)]

/-- Settles O22: the score reaches slot 0 with two zeros after it, so it is the highest and two observations are
carried. -/
theorem isolatedScoringWindowStillLocks : Obligations.IsolatedScoringWindowStillLocks := by
  intro r a l₁ l₂ hr hlen hh ha hs₁ hs₂
  generalize ho₁ : decide (217 ≤ l₁.toNat) = o₁ at hs₁ hs₂ ⊢
  generalize ho₂ : decide (217 ≤ l₂.toNat) = o₂ at hs₂ ⊢
  obtain ⟨r₁, hr₁⟩ : ∃ r₁, r₁ = { r with startBuf := r.startBuf.drop 1 ++ [o₁], hist := ⟨0, a, 0⟩ } := ⟨_, rfl⟩
  have hbuf₁ : syncBuffer r.startBuf o₁ = r.startBuf.drop 1 ++ [o₁] := syncBuffer_full _ _ hlen
  have hhist₁ : syncHist o₁ r = ⟨0, a, 0⟩ := by rw [syncHist_full _ r hlen, hbuf₁, hs₁, hh]
  obtain ⟨-, hlock⟩ := runSamples_lock_at_two blockConfig l₁ l₂ r r₁ hr (by rw [hh]) (by rwa [hh])
    (by rw [hr₁, binarize_blockConfig, ho₁, hbuf₁, hhist₁])
  have hlen₁ : r₁.startBuf.length = 24 := by simp [hr₁, hlen]
  have hbuf₂ : syncBuffer r₁.startBuf o₂ = r.startBuf.drop 2 ++ [o₁, o₂] := by
    rw [syncBuffer_full _ _ hlen₁, hr₁, List.drop_append_of_le_length (by simp [hlen]), List.drop_drop,
      List.append_assoc]
    rfl
  have hhist₂ : syncHist o₂ r₁ = ⟨a, 0, 0⟩ := by rw [syncHist_full _ _ hlen₁, hbuf₂, hs₂, hr₁]
  have hindex : (maxIndex .lowest ⟨a, 0, 0⟩).val = 0 := by
    refine maxIndex_lowest_eq _ 0 (by decide) nofun fun i hi => ?_
    interval_cases i <;> simp
  rw [hlock, binarize_blockConfig, ho₂, hhist₂, carryCount_blockConfig _ 0 hindex, hbuf₂, lastN,
    List.drop_left' (by simp [hlen])]
  rfl

end Sys2Proof.Machine
end

section
/-! The end of a frame (43_demodulator.md §4) and the report of phase changes (60_exceptions.md R206). -/

namespace Sys2Proof.Machine

/-- A sample before the last of the frame stays in RECEIVING and writes only the two buffers, which then hold one sample
more. -/
theorem rxSampleOp_before_last (cfg : Config) (l : cfg.Sample) (r : RxState) (hr : r.rxState = .receiving)
    (hobs : r.obsBuf.length ≤ 2) (hlast : 3 * r.bitBuf.length + r.obsBuf.length < 86) :
    ∃ (obs bs : List Bool) (es : List Event),
      rxSampleOp cfg l r = ({ r with obsBuf := obs, bitBuf := bs }, es) ∧
      obs.length ≤ 2 ∧ bs.length ≤ 28 ∧
      3 * bs.length + obs.length = 3 * r.bitBuf.length + r.obsBuf.length + 1 := by
  by_cases h : r.obsBuf.length ≤ 1
  · refine ⟨_, r.bitBuf, _, rxSampleOp_append cfg l r hr h, ?_⟩
    rw [List.length_append, List.length_singleton]
    omega
  · refine ⟨[], _, _, rxSampleOp_bit cfg l r hr (by omega) (by omega), ?_⟩
    rw [List.length_append, List.length_singleton, List.length_nil]
    omega

/-- While samples are missing the receiver stays in RECEIVING (43_demodulator.md §4). -/
theorem runSamples_before_last (cfg : Config) (ls : List cfg.Sample) (r : RxState) (hr : r.rxState = .receiving)
    (hobs : r.obsBuf.length ≤ 2) (h : ls.length + 3 * r.bitBuf.length + r.obsBuf.length < 87) :
    (runSamples cfg ls r).1.rxState = .receiving := by
  induction ls generalizing r with
  | nil => exact hr
  | cons l ls ih =>
    rw [List.length_cons] at h
    obtain ⟨obs, bs, es, hstep, hobs', -, hcount⟩ := rxSampleOp_before_last cfg l r hr hobs (by omega)
    rw [runSamples_cons, hstep]
    refine ih _ (by exact hr) (by exact hobs') ?_
    show ls.length + 3 * bs.length + obs.length < 87
    omega

/-- The samples missing end the frame with its report (43_demodulator.md §4). -/
theorem runSamples_to_last (cfg : Config) (ls : List cfg.Sample) (r : RxState) (hr : r.rxState = .receiving)
    (hobs : r.obsBuf.length ≤ 2) (hbits : r.bitBuf.length ≤ 28)
    (h : ls.length + 3 * r.bitBuf.length + r.obsBuf.length = 87) :
    ∃ (es : List Event) (p : Payload) (c : Bool),
      runSamples cfg ls r =
        ({ r with rxState := .searching, obsBuf := [], bitBuf := [], rxCorrected := c },
          es ++ [.rxPayload p c, .rxStatus 1#2]) := by
  induction ls generalizing r with
  | nil => rw [List.length_nil] at h; omega
  | cons l ls ih =>
    rw [List.length_cons] at h
    by_cases hlast : ls = []
    · subst hlast
      rw [List.length_nil] at h
      exact ⟨[.rxProgress 29#5], _, _, by
        rw [runSamples_cons, rxSampleOp_frame cfg l r hr (by omega) (by omega) _ rfl]; rfl⟩
    · have hpos := List.length_pos_iff.2 hlast
      obtain ⟨obs, bs, es, hstep, hobs', hbits', hcount⟩ := rxSampleOp_before_last cfg l r hr hobs (by omega)
      obtain ⟨es', p, c, hrest⟩ := ih { r with obsBuf := obs, bitBuf := bs } hr hobs' hbits'
        (by show ls.length + 3 * bs.length + obs.length = 87; omega)
      exact ⟨es ++ es', p, c, by rw [runSamples_cons, hstep, hrest, List.append_assoc]⟩

/-- Settles O30: every sample fills the buffers by one, and the 87th ends the frame. -/
theorem frameEndsAfterExactlyItsSamples : Obligations.FrameEndsAfterExactlyItsSamples :=
  fun cfg ls r hr hobs hbits =>
    ⟨runSamples_before_last cfg ls r hr hobs, runSamples_to_last cfg ls r hr hobs hbits⟩

/-- The status reports of an operation that leads from the phase `p` to the phase `q`. -/
def statusReports (p q : RxPhase) : List (BitVec 2) := if q = p then [] else [statusCode q]

/-- A sample reports the phase exactly when it changes it (60_exceptions.md R206). -/
theorem rxSampleOp_status (cfg : Config) (l : cfg.Sample) (r : RxState) :
    (rxSampleOp cfg l r).2.filterMap statusOf = statusReports r.rxState (rxSampleOp cfg l r).1.rxState := by
  cases hr : r.rxState with
  | initializing =>
    rw [rxSampleOp_initializing cfg l r hr]
    rcases sampleInitializing_cases r with ⟨-, e⟩ | ⟨-, e⟩ <;> rw [e]
    · rfl
    · exact (if_pos hr).symm
  | searching =>
    rw [rxSampleOp_searching cfg l r hr]
    rcases sampleSearching_cases cfg (binarize cfg l) r with ⟨-, e⟩ | ⟨-, e⟩ <;> rw [e]
    · rfl
    · exact (if_pos hr).symm
  | receiving =>
    rw [rxSampleOp_receiving cfg l r hr]
    rcases sampleReceiving_cases (binarize cfg l) r with ⟨-, e⟩ | ⟨-, e⟩ | ⟨-, -, e⟩ | ⟨-, -, e⟩ <;> rw [e]
    · rfl
    · exact (if_pos hr).symm
    · exact (if_pos hr).symm
    · rfl

/-- Only the receiver reports a status. -/
theorem statusOf_of_agent_ne (e : Event) (h : eventAgent e ≠ .rx) : statusOf e = none := by
  cases e <;> simp [eventAgent, statusOf] at h ⊢

/-- Every operation but RX.RESET reports the phase exactly when it changes it. -/
theorem execState_status (i : Instr) (s : State) (hi : i ≠ .rxReset) :
    ∃ es, (execState i s).events = s.events ++ es ∧
      es.filterMap statusOf = statusReports s.rx.rxState (execState i s).rx.rxState := by
  by_cases ha : instrAgent i = .rx
  · cases i with
    | rxReset => exact absurd rfl hi
    | rxSample l => exact ⟨(rxSampleOp blockConfig l s.rx).2, rfl, rxSampleOp_status blockConfig l s.rx⟩
    | _ => cases ha
  · obtain ⟨es, hev, hes⟩ := (actsFor_execState i).events s
    refine ⟨es, hev, ?_⟩
    rw [execState_rx_of_agent_ne i s ha, statusReports, if_pos rfl]
    exact List.filterMap_eq_nil_iff.2 fun e he => statusOf_of_agent_ne e ((hes e he).trans_ne ha)

/-- Settles O29: RX.RESET reports INITIALIZING, every other operation the phase it changes to. -/
theorem everyPhaseChangeIsReportedOnce : Obligations.EveryPhaseChangeIsReportedOnce := by
  intro i s t ht
  obtain rfl := (exec_next_iff i s t).1 ht
  by_cases hi : i = .rxReset
  · subst hi
    exact ⟨[.rxStatus 0#2], rfl, fun _ => rfl, fun h => absurd rfl h⟩
  · obtain ⟨es, hev, hstatus⟩ := execState_status i s hi
    refine ⟨es, hev, fun h => ?_, fun _ h => ?_⟩
    · rw [hstatus, statusReports, if_neg (h.resolve_left hi)]
    · rw [hstatus, statusReports, if_pos h]

end Sys2Proof.Machine
end
